-- ==== Sys2Proof/Word.lean ====
section
/-! DEFINITION. The word types of the block: a byte of 8 bits and a command word of 16 bits (R8). -/

namespace Sys2Proof

/-- A byte: a plaintext character as presented, a ciphertext byte, an operand, or a wire byte (R8). -/
abbrev Byte := BitVec 8

/-- A 16-bit word: a command word (R39) or the STATUS word (R22). -/
abbrev Word := BitVec 16

end Sys2Proof
end

