-- ==== Sys2Proof/Syntax.lean ====
section
/-! DEFINITION. The seven commands of the opcode map (R41), one constructor for each row of spec/opcode_table.json. -/

namespace Sys2Proof

/-- A legal command with its operand (R40, R41). The START and END commands take no operand: their operand
field must be 0x00 (R42), which the decoder checks. -/
inductive Instr where
  /-- CIPH.ENC (R54): encrypt one plaintext character. -/
  | ciphEnc (imm : Byte)
  /-- CIPH.DEC (R55): decrypt one ciphertext byte. -/
  | ciphDec (imm : Byte)
  /-- ENC.START (R63): begin an encoded message. -/
  | encStart
  /-- ENC.BYTE (R64): encode one byte into eight symbols. -/
  | encByte (imm : Byte)
  /-- DEC.START (R71): begin a decoded message. -/
  | decStart
  /-- DEC.SYM (R72): decode one symbol, given as its wire byte. -/
  | decSym (imm : Byte)
  /-- DEC.END (R73): end a decoded message and report its outcome. -/
  | decEnd
  deriving DecidableEq, Repr

end Sys2Proof
end

