-- ==== Sys2Proof/WellFormed.lean ====
section
/-! DEFINITION. Which pairs of opcode and operand fields are commands at all (R41, R42, R43). Every term of `Instr` is a
command, so well-formedness is a property of the fields of a command word. -/

namespace Sys2Proof

/-- The two fields of a command word (R39). -/
structure Fields where
  /-- `w[15:8]`, the opcode field. -/
  op : Byte
  /-- `w[7:0]`, the operand field. -/
  imm : Byte
  deriving DecidableEq, Repr

/-- The opcodes whose operand is a byte of data (R40, R41). -/
def dataOpcodes : List Byte := [0x01#8, 0x02#8, 0x11#8, 0x21#8]

/-- The opcodes whose operand field is reserved and must be 0x00 (R42). -/
def bareOpcodes : List Byte := [0x10#8, 0x20#8, 0x22#8]

/-- The opcode is one of the seven of the opcode map (R41); any other is illegal (R43). -/
def Fields.opcodeKnown (f : Fields) : Bool :=
  dataOpcodes.contains f.op || bareOpcodes.contains f.op

/-- A reserved operand field holds 0x00 (R42). -/
def Fields.operandLegal (f : Fields) : Bool :=
  !bareOpcodes.contains f.op || f.imm == 0x00#8

/-- The fields are those of a legal command word: 1027 of the 65536 words (R43). -/
def Fields.wellFormed (f : Fields) : Bool := f.opcodeKnown && f.operandLegal

end Sys2Proof
end

