-- ==== Sys2Proof/Decode.lean ====
section
/-! DEFINITION. The decoder and the encoder of command words (R39 to R43). -/

namespace Sys2Proof

/-- Why a word decodes to no command. Both respond ILLEGAL_COMMAND (R42, R43). -/
inductive DecodeError where
  /-- The opcode is not in the opcode map (R43). -/
  | illegalOpcode (op : Byte)
  /-- A START or END opcode with a reserved operand that is not 0x00 (R42). -/
  | reservedOperand (op imm : Byte)
  deriving DecidableEq, Repr

/-- The opcode and operand fields of a command word (R39). -/
def fieldsOf (w : Word) : Fields :=
  { op := w.extractLsb' 8 8, imm := w.extractLsb' 0 8 }

/-- The word `{op, imm}` (R39, R48). -/
def wordOf (op imm : Byte) : Word := op ++ imm

/-- A START or END command, whose operand field must be 0x00 (R42). -/
def decodeBare (i : Instr) (f : Fields) : Except DecodeError Instr :=
  if f.imm = 0x00#8 then .ok i else .error (.reservedOperand f.op f.imm)

/-- `decode` of R43 on the two fields of a word. -/
def decodeFields (f : Fields) : Except DecodeError Instr :=
  if f.op = 0x01#8 then .ok (.ciphEnc f.imm)
  else if f.op = 0x02#8 then .ok (.ciphDec f.imm)
  else if f.op = 0x10#8 then decodeBare .encStart f
  else if f.op = 0x11#8 then .ok (.encByte f.imm)
  else if f.op = 0x20#8 then decodeBare .decStart f
  else if f.op = 0x21#8 then .ok (.decSym f.imm)
  else if f.op = 0x22#8 then decodeBare .decEnd f
  else .error (.illegalOpcode f.op)

/-- `decode` of R43: total on all 65536 words. -/
def decode (w : Word) : Except DecodeError Instr := decodeFields (fieldsOf w)

/-- The word of a command (R41). A command without an operand has the operand field 0x00 (R42). -/
def encode : Instr → Word
  | .ciphEnc imm => wordOf 0x01#8 imm
  | .ciphDec imm => wordOf 0x02#8 imm
  | .encStart => wordOf 0x10#8 0x00#8
  | .encByte imm => wordOf 0x11#8 imm
  | .decStart => wordOf 0x20#8 0x00#8
  | .decSym imm => wordOf 0x21#8 imm
  | .decEnd => wordOf 0x22#8 0x00#8

/-- The command word whose low `nbits` bits are those of `w` and whose other bits are 0. A command is one
16-bit word taken as a number, so no byte order enters (R31, R39). -/
def tableWord (nbits w : Nat) : Word := BitVec.ofNat 16 (w % 2 ^ nbits)

/-- The instruction the decoder reads from a word of the opcode table. -/
def decodeTableWord (nbits w : Nat) : Option Instr := (decode (tableWord nbits w)).toOption

end Sys2Proof
end

