-- ==== Sys2Proof/Config.lean ====
section
/-! DEFINITION. The configuration of a block: the parameters KEY and REJECT_TRUNCATED (R6, R7). -/

namespace Sys2Proof

/-- The configuration `cfg` of one block (R5): fixed for the life of the block, written by no command and
not changed by reset (R6, R88). -/
structure Config where
  /-- `KEY`, the cipher key: any of 0x00 to 0xFF (R6). -/
  key : Byte
  /-- `REJECT_TRUNCATED`: whether DEC.END reports a trailing partial byte (R7). -/
  rejectTruncated : Bool
  deriving DecidableEq, Repr

/-- The key of a block about which nothing is said. R6 leaves `KEY` OPEN, so this constant has no body:
nothing can be proved of its value. DESIGN CHOICE, safe (log entry 1). -/
opaque Config.openKey : Byte

/-- The configuration of `Machine.State.reset`: an open key, and the default `false` of R7. -/
def Config.initial : Config := { key := Config.openKey, rejectTruncated := false }

end Sys2Proof
end

