-- ==== Sys2Proof/Machine/State.lean ====
section
/-! DEFINITION. The state of one block (R12 to R18), what it takes in and gives back (R5, R23, R96), and the reasons a
step could stop. -/

namespace Sys2Proof.Machine

/-- The side that the next mark must take (R14, R15): `POS` or `NEG`. -/
inductive Polarity where
  | pos
  | neg
  deriving DecidableEq, Repr

/-- The three-valued signal alphabet (R44), written Z, P and N. -/
inductive Symbol where
  /-- Z: a 0 bit. -/
  | zero
  /-- P: a 1 bit on the positive side. -/
  | positiveMark
  /-- N: a 1 bit on the negative side. -/
  | negativeMark
  deriving DecidableEq, Repr

/-- The three reasons of a protocol violation (R24, R76). -/
inductive Violation where
  | unexpectedPositive
  | unexpectedNegative
  | unknownSymbol
  deriving DecidableEq, Repr

/-- The response codes (R24). The numbers 9 to 15 are reserved and never returned, so they have no constructor. -/
inductive ResponseCode where
  | ok
  | invalidInput
  | decodingError
  | unexpectedPositive
  | unexpectedNegative
  | unknownSymbol
  | truncated
  | ignoredAfterError
  | illegalCommand
  deriving DecidableEq, Repr

/-- The architectural state `s = (E_POL, D_POL, D_ACC, D_CNT, D_ERR)` of one block (R12). -/
structure Registers where
  /-- `E_POL` (R14). -/
  ePol : Polarity
  /-- `D_POL` (R15). -/
  dPol : Polarity
  /-- `D_ACC` (R16). -/
  dAcc : Byte
  /-- `D_CNT` (R17). -/
  dCnt : BitVec 3
  /-- `D_ERR` (R18): `none` is the spec's NONE. The numbers 1, 2, 6 and 7, which never occur, have no
  value here (DEDUCED, log entry 5). -/
  dErr : Option Violation
  deriving DecidableEq, Repr

/-- The reset values of the five registers (R14 to R18, R88). -/
def Registers.reset : Registers :=
  { ePol := .pos, dPol := .pos, dAcc := 0x00#8, dCnt := 0#3, dErr := none }

/-- What the block returns for one command (R23). -/
structure Response where
  code : ResponseCode
  /-- The bytes emitted, in the order `emit` appended them. -/
  data : List Byte
  /-- STATUS after the command. -/
  status : Word
  deriving DecidableEq, Repr

/-- What the host can do to the block while it runs (R96): present a command word, or assert reset (R88). -/
inductive HostInput where
  | command (w : Word)
  | reset
  deriving DecidableEq, Repr

/-- A block together with its host port. `config` and `regs` are the `cfg` and the `s` of R5. `inputs` and
`responses` are the model's own (DESIGN CHOICE, log entry 2): the words `w` the host is about to present and
the `resp` it has been given. No command reads either of them. -/
structure State where
  /-- KEY and REJECT_TRUNCATED (R6, R7). -/
  config : Config
  /-- The 16 bits of architectural state (R12). -/
  regs : Registers
  /-- What the host presents from now on, first to come first. -/
  inputs : List HostInput
  /-- The responses given so far, newest first. -/
  responses : List Response
  deriving DecidableEq, Repr

/-- The responses given so far, oldest first. -/
def State.transcript (s : State) : List Response := s.responses.reverse

/-- The machine right after reset (R88), with nothing presented and no response given. -/
def State.reset : State :=
  { config := Config.initial, regs := Registers.reset, inputs := [], responses := [] }

/-- The block has no trap and no fault: an error is a response code (R77). So there is no reason to fault,
and nothing raises one. Safe: a model without faults hides none, as the spec names none. -/
inductive Fault where
  deriving DecidableEq, Repr

/-- Why the model gives a command no meaning. -/
inductive Refusal where
  /-- An instruction whose arm of `exec` is not written yet. No arm raises it: every command has its meaning.
  Safe: it would only stop a run. -/
  | notModelled (mnemonic : String)
  deriving DecidableEq, Repr

end Sys2Proof.Machine
end

