-- ==== Sys2Proof/Machine/Flags.lean ====
section
/-! DEFINITION. The bits of the STATUS word and the numbers of the response codes (R18, R22, R24, R47). -/

namespace Sys2Proof.Machine

/-- `POS = 0`, `NEG = 1` (R47). -/
def Polarity.bit : Polarity → BitVec 1
  | .pos => 0#1
  | .neg => 1#1

/-- The response code that reports a violation (R24). -/
def Violation.code : Violation → ResponseCode
  | .unexpectedPositive => .unexpectedPositive
  | .unexpectedNegative => .unexpectedNegative
  | .unknownSymbol => .unknownSymbol

/-- The 4-bit number of a response code (R24). -/
def ResponseCode.number : ResponseCode → BitVec 4
  | .ok => 0#4
  | .invalidInput => 1#4
  | .decodingError => 2#4
  | .unexpectedPositive => 3#4
  | .unexpectedNegative => 4#4
  | .unknownSymbol => 5#4
  | .truncated => 6#4
  | .ignoredAfterError => 7#4
  | .illegalCommand => 8#4

/-- The 3-bit value of `D_ERR` (R18). -/
def errorBits : Option Violation → BitVec 3
  | none => 0#3
  | some .unexpectedPositive => 3#3
  | some .unexpectedNegative => 4#3
  | some .unknownSymbol => 5#3

/-- `STATUS(s) = {D_ACC[7:0], D_ERR[2:0], D_CNT[2:0], D_POL, E_POL}` (R22). -/
def status (r : Registers) : Word :=
  r.dAcc ++ errorBits r.dErr ++ r.dCnt ++ r.dPol.bit ++ r.ePol.bit

/-- The polarity a bit of STATUS shows (R47). -/
def polarityOfBit (b : BitVec 1) : Polarity := if b = 0#1 then .pos else .neg

/-- The sticky error that a `D_ERR` field shows; the values 1, 2, 6 and 7 never occur (R18). -/
def errorOfBits (b : BitVec 3) : Option (Option Violation) :=
  if b = 0#3 then some none
  else if b = 3#3 then some (some .unexpectedPositive)
  else if b = 4#3 then some (some .unexpectedNegative)
  else if b = 5#3 then some (some .unknownSymbol)
  else none

/-- The registers that a STATUS word shows: every bit of the state is visible in it (R27). -/
def registersOfStatus (w : Word) : Option Registers :=
  (errorOfBits (w.extractLsb' 5 3)).map fun e =>
    { ePol := polarityOfBit (w.extractLsb' 0 1)
      dPol := polarityOfBit (w.extractLsb' 1 1)
      dCnt := w.extractLsb' 2 3
      dErr := e
      dAcc := w.extractLsb' 8 8 }

end Sys2Proof.Machine
end

