-- ==== Sys2Proof/Machine/Operands.lean ====
section
/-! DEFINITION. What the 8-bit operand of a command stands for (R40): a character (R58), a byte taken bit by bit (R30), or
the wire byte of a symbol (R45, R46). -/

namespace Sys2Proof.Machine

/-- `imm[7] == 1`: the byte is above 127, so it is no 7-bit ASCII character (R54, R55). -/
def aboveAscii (b : Byte) : Bool := b.getLsbD 7

/-- The host may present a character of code point `c` as the operand `imm` (R58): `c` itself up to 127, `c`
itself from 128 to 255, and any byte with bit 7 set for any code point above 127. -/
def presents (c : Nat) (imm : Byte) : Bool :=
  if c ≤ 127 then imm == BitVec.ofNat 8 c else imm.getLsbD 7

/-- The bits of a byte, bit 0 first (R30). -/
def byteBits (b : Byte) : List Bool :=
  [b.getLsbD 0, b.getLsbD 1, b.getLsbD 2, b.getLsbD 3, b.getLsbD 4, b.getLsbD 5, b.getLsbD 6, b.getLsbD 7]

/-- The wire byte of a symbol (R45). -/
def Symbol.wire : Symbol → Byte
  | .zero => 0x01#8
  | .positiveMark => 0x02#8
  | .negativeMark => 0x00#8

/-- The symbol of a wire byte; any byte from 0x03 up is none (R45, R46). -/
def symbolOfWire (x : Byte) : Option Symbol :=
  if x = 0x01#8 then some .zero
  else if x = 0x02#8 then some .positiveMark
  else if x = 0x00#8 then some .negativeMark
  else none

/-- The other polarity. -/
def Polarity.flip : Polarity → Polarity
  | .pos => .neg
  | .neg => .pos

/-- The mark that stands for a 1 bit when the next mark must take side `p` (R59). -/
def Polarity.mark : Polarity → Symbol
  | .pos => .positiveMark
  | .neg => .negativeMark

/-- The bit value a symbol stands for (R44). -/
def Symbol.bit : Symbol → Bool
  | .zero => false
  | .positiveMark => true
  | .negativeMark => true

/-- A bit as the byte whose bit 0 it is (`bit` in `bit << D_CNT`, R72). -/
def bitByte (b : Bool) : Byte := if b then 1#8 else 0#8

end Sys2Proof.Machine
end

