-- ==== Sys2Proof/Machine/Ops.lean ====
section
/-! DEFINITION. The operations that every command shares: configuring a block (R90, R96), taking the next input (R34), ending a command with a response
(R10, R23), an illegal word (R42, R43), and reset (R88). The block has no memory (R28) and takes no exception (R77), so
there is no operation for either. -/

namespace Sys2Proof.Machine

/-- The host configures a block before its first command (R90, R96). No command and no step does this: KEY is set
out of band and holds for the whole life of the block (R6, R85). -/
def configure (cfg : Config) (s : State) : State := { s with config := cfg }

/-- The next thing the host does, and the state with it taken; none where the host presents nothing (R34). -/
def takeInput (s : State) : Option (HostInput × State) :=
  match s.inputs with
  | [] => none
  | x :: rest => some (x, { s with inputs := rest })

/-- The end of a command (R10, R23): every register write takes effect, all together, and the response carries
the code, the bytes emitted and STATUS after the command. -/
def complete (s : State) (regs : Registers) (code : ResponseCode) (data : List Byte) : State :=
  { s with
    regs := regs
    responses := { code := code, data := data, status := status regs } :: s.responses }

/-- A word that decodes to no command: ILLEGAL_COMMAND, no data, no state change (R42, R43, R80). -/
def illegalCommand (s : State) : State := complete s s.regs .illegalCommand []

/-- The reset input (R88): every register takes its reset value, the configuration stays, and no response is
produced. -/
def applyReset (s : State) : State := { s with regs := Registers.reset }

end Sys2Proof.Machine
end

