-- ==== Sys2Proof/Machine/Cipher.lean ====
section
/-! DEFINITION. The Cipher's commands, CIPH.ENC (R54) and CIPH.DEC (R55). The Cipher has no state (R19). -/

namespace Sys2Proof.Machine

/-- CIPH.ENC (R54): the check is on the plaintext character, before the exclusive-or. -/
def execCiphEnc (imm : Byte) (s : State) : Host.Outcome State Fault Refusal :=
  .next
    (if aboveAscii imm then complete s s.regs .invalidInput []
      else complete s s.regs .ok [imm ^^^ s.config.key])

/-- CIPH.DEC (R55): the check is on the decrypted byte. -/
def execCiphDec (imm : Byte) (s : State) : Host.Outcome State Fault Refusal :=
  .next
    (if aboveAscii (imm ^^^ s.config.key) then complete s s.regs .decodingError []
      else complete s s.regs .ok [imm ^^^ s.config.key])

end Sys2Proof.Machine
end

