-- ==== Sys2Proof/Machine/Decoder.lean ====
section
/-! DEFINITION. The Line Decoder's commands, DEC.START (R71), DEC.SYM (R72) and DEC.END (R73). -/

namespace Sys2Proof.Machine

/-- The decoder's registers at the start of a message (R71, R73); `E_POL` stays. -/
def decoderStart (r : Registers) : Registers :=
  { r with dPol := .pos, dAcc := 0x00#8, dCnt := 0#3, dErr := none }

/-- The symbol check of DEC.SYM (R72): the bit a symbol contributes and the polarity after it, or the
violation. -/
def checkSymbol (p : Polarity) (x : Byte) : Except Violation (Bool × Polarity) :=
  match symbolOfWire x, p with
  | some .zero, p => .ok (false, p)
  | some .positiveMark, .pos => .ok (true, .neg)
  | some .positiveMark, .neg => .error .unexpectedPositive
  | some .negativeMark, .neg => .ok (true, .pos)
  | some .negativeMark, .pos => .error .unexpectedNegative
  | none, _ => .error .unknownSymbol

/-- An accepted symbol (R72): its bit is placed at position `D_CNT`, and the eighth bit completes the byte. -/
def placeBit (bit : Bool) (p : Polarity) (s : State) : State :=
  let acc := s.regs.dAcc ||| (bitByte bit <<< s.regs.dCnt.toNat)
  if s.regs.dCnt = 7#3 then
    complete s { s.regs with dPol := p, dAcc := 0x00#8, dCnt := 0#3 } .ok [acc]
  else
    complete s { s.regs with dPol := p, dAcc := acc, dCnt := s.regs.dCnt + 1#3 } .ok []

/-- A failing symbol (R72): only `D_ERR` is written. -/
def failSymbol (v : Violation) (s : State) : State :=
  complete s { s.regs with dErr := some v } v.code []

/-- DEC.START (R71). -/
def execDecStart (s : State) : Host.Outcome State Fault Refusal :=
  .next (complete s (decoderStart s.regs) .ok [])

/-- DEC.SYM (R72): ignored while a sticky error is held (R79). -/
def execDecSym (imm : Byte) (s : State) : Host.Outcome State Fault Refusal :=
  match s.regs.dErr with
  | some _ => .next (complete s s.regs .ignoredAfterError [])
  | none =>
    match checkSymbol s.regs.dPol imm with
    | .ok (bit, p) => .next (placeBit bit p s)
    | .error v => .next (failSymbol v s)

/-- The code DEC.END reports (R73): a sticky error outranks TRUNCATED (R81). -/
def endCode (cfg : Config) (r : Registers) : ResponseCode :=
  match r.dErr with
  | some v => v.code
  | none => if r.dCnt ≠ 0#3 ∧ cfg.rejectTruncated = true then .truncated else .ok

/-- DEC.END (R73): the outcome is reported, and the decoder is left as DEC.START leaves it. -/
def execDecEnd (s : State) : Host.Outcome State Fault Refusal :=
  .next (complete s (decoderStart s.regs) (endCode s.config s.regs) [])

end Sys2Proof.Machine
end

