-- ==== Sys2Proof/Machine/Encoder.lean ====
section
/-! DEFINITION. The Line Encoder's commands, ENC.START (R63) and ENC.BYTE (R64). -/

namespace Sys2Proof.Machine

/-- The symbols of a list of bits, and the polarity after them, from a given polarity (R59 step 3, R64). -/
def encodeBits : List Bool → Polarity → List Symbol × Polarity
  | [], p => ([], p)
  | false :: bs, p => (.zero :: (encodeBits bs p).1, (encodeBits bs p).2)
  | true :: bs, p => (p.mark :: (encodeBits bs p.flip).1, (encodeBits bs p.flip).2)

/-- ENC.START (R63). -/
def execEncStart (s : State) : Host.Outcome State Fault Refusal :=
  .next (complete s { s.regs with ePol := .pos } .ok [])

/-- ENC.BYTE (R64): eight wire bytes, bit 0 first, with the polarity carried in `E_POL`. -/
def execEncByte (imm : Byte) (s : State) : Host.Outcome State Fault Refusal :=
  let out := encodeBits (byteBits imm) s.regs.ePol
  .next (complete s { s.regs with ePol := out.2 } .ok (out.1.map Symbol.wire))

end Sys2Proof.Machine
end

