-- ==== Sys2Proof/Machine/Dispatch.lean ====
section
/-! DEFINITION. One arm for each command: the meaning of a decoded command in a state. -/

namespace Sys2Proof.Machine

def exec (i : Instr) (s : State) : Host.Outcome State Fault Refusal :=
  match i with
  | .ciphEnc imm => Sys2Proof.Machine.execCiphEnc imm s
  | .ciphDec imm => Sys2Proof.Machine.execCiphDec imm s
  | .encStart => Sys2Proof.Machine.execEncStart s
  | .encByte imm => Sys2Proof.Machine.execEncByte imm s
  | .decStart => Sys2Proof.Machine.execDecStart s
  | .decSym imm => Sys2Proof.Machine.execDecSym imm s
  | .decEnd => Sys2Proof.Machine.execDecEnd s

end Sys2Proof.Machine
end

