-- ==== Sys2Proof/Machine/Issue.lean ====
section
/-! DEFINITION. What one command word does: it is decoded, and runs or is illegal (R5, R43, R80). -/

namespace Sys2Proof.Machine

/-- One command word presented to the block (R5). An illegal word is decided from the word alone (R80). -/
def issue (w : Word) (s : State) : Host.Outcome State Fault Refusal :=
  match decode w with
  | .ok i => exec i s
  | .error _ => .next (illegalCommand s)

/-- One input of the host: a command word, or reset (R88, R96). -/
def acceptInput (x : HostInput) (s : State) : Host.Outcome State Fault Refusal :=
  match x with
  | .command w => issue w s
  | .reset => .next (applyReset s)

end Sys2Proof.Machine
end

