-- ==== Sys2Proof/Machine/Message.lean ====
section
/-! DEFINITION. Whole messages (R11): the four functions the source defines (R51, R52, R59, R67), the command sequences
that realise them (R49), and how the host reads a message's result off the responses (R56, R66, R74, R93). -/

namespace Sys2Proof.Machine

/-- The error kinds of a message (R11, R76). `truncated` arises only with REJECT_TRUNCATED (R67). -/
inductive ErrorKind where
  /-- `InvalidInputError`. -/
  | invalidInput
  /-- `DecodingError`. -/
  | decoding
  /-- `ProtocolViolationError` with its reason. -/
  | protocolViolation (v : Violation)
  /-- `Truncated`. -/
  | truncated
  deriving DecidableEq, Repr

/-- `encrypt(cfg, cs)` of a list of code points (R51). The check comes before any transformation. -/
def encryptMessage (cfg : Config) (cs : List Nat) : Except ErrorKind (List Byte) :=
  if cs.any (fun c => decide (127 < c)) then .error .invalidInput
  else .ok (cs.map fun c => BitVec.ofNat 8 c ^^^ cfg.key)

/-- `decrypt(cfg, bs)`, whose result is a list of code points (R52). -/
def decryptMessage (cfg : Config) (bs : List Byte) : Except ErrorKind (List Nat) :=
  let ps := bs.map fun b => (b ^^^ cfg.key).toNat
  if ps.any (fun p => decide (127 < p)) then .error .decoding else .ok ps

/-- Step 3 of the source's encoder (R59): one bit, with the polarity and the symbols so far. -/
def encodeStep (st : Polarity × List Symbol) (bit : Bool) : Polarity × List Symbol :=
  if bit = false then (st.1, st.2 ++ [.zero])
  else (st.1.flip, st.2 ++ [if st.1 = .pos then .positiveMark else .negativeMark])

/-- `encode(bs)` (R59): bytes in input order, each bit 0 first, the polarity carried across bytes from POS. -/
def encodeMessage (bs : List Byte) : List Symbol :=
  (bs.foldl (fun st b => (byteBits b).foldl encodeStep st) (.pos, [])).2

/-- The wire bytes of an encoded message, `[wire(x) for x in encode(bs)]` (R66). -/
def encodeToWire (bs : List Byte) : List Byte := (encodeMessage bs).map Symbol.wire

/-- The bits of a message in the order they are sent (R30, R31). -/
def messageBits (bs : List Byte) : List Bool := bs.flatMap byteBits

/-- `parity(bs)` (R62): whether the number of 1 bits of the whole message is odd. -/
def oddOnes (bits : List Bool) : Bool := bits.count true % 2 == 1

/-- `p XOR parity` on polarities (R62, R65). -/
def flipIf (odd : Bool) (p : Polarity) : Polarity := if odd then p.flip else p

/-- The loop of the source's decoder (R67), from a polarity, an accumulator, a count of bits placed and the
bytes put out so far. It answers the bytes and the count at the end of the input. -/
def decodeLoop : List Byte → Polarity → Byte → Nat → List Byte → Except Violation (List Byte × Nat)
  | [], _, _, cnt, out => .ok (out, cnt)
  | x :: xs, pol, acc, cnt, out =>
    let place (bit : Byte) (pol : Polarity) : Except Violation (List Byte × Nat) :=
      if cnt + 1 = 8 then decodeLoop xs pol 0x00#8 0 (out ++ [acc ||| (bit <<< cnt)])
      else decodeLoop xs pol (acc ||| (bit <<< cnt)) (cnt + 1) out
    if x = 0x01#8 then place 0#8 pol
    else if x = 0x02#8 then
      if pol = .pos then place 1#8 .neg else .error .unexpectedPositive
    else if x = 0x00#8 then
      if pol = .neg then place 1#8 .pos else .error .unexpectedNegative
    else .error .unknownSymbol

/-- `decode(cfg, xs)` of a list of wire bytes (R67). -/
def decodeMessage (cfg : Config) (xs : List Byte) : Except ErrorKind (List Byte) :=
  match decodeLoop xs .pos 0x00#8 0 [] with
  | .error v => .error (.protocolViolation v)
  | .ok (out, cnt) => if cnt ≠ 0 ∧ cfg.rejectTruncated = true then .error .truncated else .ok out

/-- `ENCRYPT.MSG` (R49). -/
def encryptProgram (cs : List Byte) : List Instr := cs.map .ciphEnc

/-- `DECRYPT.MSG` (R49). -/
def decryptProgram (bs : List Byte) : List Instr := bs.map .ciphDec

/-- `ENCODE.MSG` (R49). -/
def encodeProgram (bs : List Byte) : List Instr := .encStart :: bs.map .encByte

/-- `DECODE.MSG` (R49). -/
def decodeProgram (xs : List Byte) : List Instr := .decStart :: (xs.map .decSym ++ [.decEnd])

/-- The data bytes of a list of responses, in order. -/
def responseData (rs : List Response) : List Byte := rs.flatMap Response.data

/-- The result of ENCRYPT.MSG read off its responses (R56): one INVALID_INPUT fails the whole message. -/
def encryptResult (rs : List Response) : Except ErrorKind (List Byte) :=
  if rs.any (fun r => r.code == .invalidInput) then .error .invalidInput else .ok (responseData rs)

/-- The result of DECRYPT.MSG read off its responses (R56): one DECODING_ERROR fails the whole message. -/
def decryptResult (rs : List Response) : Except ErrorKind (List Nat) :=
  if rs.any (fun r => r.code == .decodingError) then .error .decoding
  else .ok ((responseData rs).map BitVec.toNat)

/-- The result of DECODE.MSG read off its responses (R74): the code of the last one, DEC.END's, decides it.
None where the last response is no outcome of DEC.END. -/
def decodeResult (rs : List Response) : Option (Except ErrorKind (List Byte)) :=
  match rs.getLast? with
  | none => none
  | some r =>
    match r.code with
    | .ok => some (.ok (responseData rs))
    | .unexpectedPositive => some (.error (.protocolViolation .unexpectedPositive))
    | .unexpectedNegative => some (.error (.protocolViolation .unexpectedNegative))
    | .unknownSymbol => some (.error (.protocolViolation .unknownSymbol))
    | .truncated => some (.error .truncated)
    | .invalidInput => none
    | .decodingError => none
    | .ignoredAfterError => none
    | .illegalCommand => none

end Sys2Proof.Machine
end

