-- ==== Sys2Proof/Machine/Assembler.lean ====
section
/-! DEFINITION. The assembler of R48 and its pseudo-instructions (R49): a line of text becomes command words. What R48
leaves open of the text's form is a DESIGN CHOICE of log entry 9: blanks and tabs separate, a quote or a comma ends a word
without one, each of these and a semicolon stands for itself inside quotes, letters are read in the case the spec prints
them, and a line without a command assembles to no words. -/

namespace Sys2Proof.Machine

/-- A piece of a line. -/
inductive Token where
  /-- A run of letters, digits and dots. -/
  | word (cs : List Char)
  /-- A character in single quotes. -/
  | quoted (c : Char)
  | comma
  deriving DecidableEq, Repr

/-- The word read so far (last letter first), as a token, if it has a letter. -/
def flushWord (cur : List Char) : List Token :=
  if cur.isEmpty then [] else [.word cur.reverse]

/-- The single quote. -/
def quoteChar : Char := Char.ofNat 39

/-- Where the reading of a line stands. -/
inductive Lexing where
  /-- Outside quotes, with the letters of the word being read, last first. -/
  | letters (cur : List Char)
  /-- After an opening quote. -/
  | opened
  /-- After an opening quote and a character. -/
  | filled (c : Char)
  deriving DecidableEq, Repr

/-- The tokens of a line. A semicolon outside quotes starts a comment (R48). Inside quotes a semicolon is the quoted
character, so that `';'` is the operand 0x3B: R48 says both that a semicolon starts a comment and that an operand may be a
quoted ASCII character, and does not say which holds there, so this is a DESIGN CHOICE (log entry 9), and so it is for a
blank, a tab, a comma and a quote inside quotes. A quoted character is a quote, any character and a quote; a quote that goes on otherwise becomes a word that no operand is spelled as. No blank need stand
before or after a quoted character or a comma: `CIPH.ENC'A'` assembles as `CIPH.ENC 'A'` does. R48 shows only
`MNEMONIC operand`, so this is a DESIGN CHOICE (log entry 9). -/
def tokenize : List Char → Lexing → List Token
  | [], .letters cur => flushWord cur
  | [], .opened => [.word [quoteChar]]
  | [], .filled c => [.word [quoteChar, c]]
  | c :: rest, .letters cur =>
    if c = ';' then flushWord cur
    else if c = ' ' ∨ c = '\t' then flushWord cur ++ tokenize rest (.letters [])
    else if c = ',' then flushWord cur ++ .comma :: tokenize rest (.letters [])
    else if c = quoteChar then flushWord cur ++ tokenize rest .opened
    else tokenize rest (.letters (c :: cur))
  | c :: rest, .opened => tokenize rest (.filled c)
  | c :: rest, .filled d =>
    if c = quoteChar then .quoted d :: tokenize rest (.letters [])
    else .word [quoteChar, d] :: tokenize rest (.letters [c])

/-- The value of a digit, below 16. -/
def digitValue (c : Char) : Option Nat :=
  if '0' ≤ c ∧ c ≤ '9' then some (c.toNat - 48)
  else if 'A' ≤ c ∧ c ≤ 'F' then some (c.toNat - 55)
  else if 'a' ≤ c ∧ c ≤ 'f' then some (c.toNat - 87)
  else none

/-- The number that digits spell in a base, going on from `acc`. -/
def digitsValue (base : Nat) : List Char → Nat → Option Nat
  | [], acc => some acc
  | c :: cs, acc =>
    match digitValue c with
    | none => none
    | some d => if d < base then digitsValue base cs (acc * base + d) else none

/-- An operand as written (R48): a number, or the name of a symbol. -/
inductive Operand where
  | number (n : Nat)
  | symbol (x : Symbol)
  deriving DecidableEq, Repr

/-- One operand (R48): hexadecimal, decimal, a quoted ASCII character, or Z, P or N. -/
def parseOperand : Token → Option Operand
  | .comma => none
  | .quoted c => if c.toNat ≤ 127 then some (.number c.toNat) else none
  | .word cs =>
    match cs with
    | [] => none
    | ['Z'] => some (.symbol .zero)
    | ['P'] => some (.symbol .positiveMark)
    | ['N'] => some (.symbol .negativeMark)
    | '0' :: 'x' :: d :: ds => (digitsValue 16 (d :: ds) 0).map .number
    | d :: ds => (digitsValue 10 (d :: ds) 0).map .number

/-- Operands separated by commas (R49). -/
def parseOperands : List Token → Option (List Operand)
  | [] => some []
  | [t] => (parseOperand t).map fun o => [o]
  | t :: .comma :: u :: rest =>
    match parseOperand t, parseOperands (u :: rest) with
    | some o, some os => some (o :: os)
    | _, _ => none
  | _ => none

/-- The byte of an operand: 0 to 255, or a symbol's wire byte where symbol names are allowed (R48). -/
def operandByte (symbols : Bool) : Operand → Option Byte
  | .number n => if n ≤ 255 then some (BitVec.ofNat 8 n) else none
  | .symbol x => if symbols then some x.wire else none

/-- The bytes of a list of operands, if each has one. -/
def operandBytes (symbols : Bool) : List Operand → Option (List Byte)
  | [] => some []
  | o :: os =>
    match operandByte symbols o, operandBytes symbols os with
    | some b, some bs => some (b :: bs)
    | _, _ => none

/-- The commands (R41) and pseudo-instructions (R49) of the assembler, by name. -/
inductive Mnemonic where
  | ciphEnc | ciphDec | encStart | encByte | decStart | decSym | decEnd
  | encryptMsg | decryptMsg | encodeMsg | decodeMsg
  deriving DecidableEq, Repr

/-- The letters of a mnemonic. -/
def letters : Mnemonic → List Char
  | .ciphEnc => ['C', 'I', 'P', 'H', '.', 'E', 'N', 'C']
  | .ciphDec => ['C', 'I', 'P', 'H', '.', 'D', 'E', 'C']
  | .encStart => ['E', 'N', 'C', '.', 'S', 'T', 'A', 'R', 'T']
  | .encByte => ['E', 'N', 'C', '.', 'B', 'Y', 'T', 'E']
  | .decStart => ['D', 'E', 'C', '.', 'S', 'T', 'A', 'R', 'T']
  | .decSym => ['D', 'E', 'C', '.', 'S', 'Y', 'M']
  | .decEnd => ['D', 'E', 'C', '.', 'E', 'N', 'D']
  | .encryptMsg => ['E', 'N', 'C', 'R', 'Y', 'P', 'T', '.', 'M', 'S', 'G']
  | .decryptMsg => ['D', 'E', 'C', 'R', 'Y', 'P', 'T', '.', 'M', 'S', 'G']
  | .encodeMsg => ['E', 'N', 'C', 'O', 'D', 'E', '.', 'M', 'S', 'G']
  | .decodeMsg => ['D', 'E', 'C', 'O', 'D', 'E', '.', 'M', 'S', 'G']

/-- Every mnemonic. -/
def mnemonics : List Mnemonic :=
  [.ciphEnc, .ciphDec, .encStart, .encByte, .decStart, .decSym, .decEnd,
    .encryptMsg, .decryptMsg, .encodeMsg, .decodeMsg]

/-- The mnemonic that letters spell. -/
def mnemonicOf (cs : List Char) : Option Mnemonic := mnemonics.find? fun m => letters m == cs

/-- A command with exactly one operand. -/
def withOneByte (i : Byte → Instr) : Option (List Byte) → Option (List Instr)
  | some [b] => some [i b]
  | _ => none

/-- A command with no operand (R48). -/
def withNone (i : Instr) : List Operand → Option (List Instr)
  | [] => some [i]
  | _ :: _ => none

/-- The commands of a line: one command, or the expansion of a pseudo-instruction (R48, R49). Only DEC.SYM, and
DECODE.MSG, which expands to it, may name a symbol. -/
def lineCommands (m : Mnemonic) (os : List Operand) : Option (List Instr) :=
  match m with
  | .ciphEnc => withOneByte .ciphEnc (operandBytes false os)
  | .ciphDec => withOneByte .ciphDec (operandBytes false os)
  | .encStart => withNone .encStart os
  | .encByte => withOneByte .encByte (operandBytes false os)
  | .decStart => withNone .decStart os
  | .decSym => withOneByte .decSym (operandBytes true os)
  | .decEnd => withNone .decEnd os
  | .encryptMsg => (operandBytes false os).map encryptProgram
  | .decryptMsg => (operandBytes false os).map decryptProgram
  | .encodeMsg => (operandBytes false os).map encodeProgram
  | .decodeMsg => (operandBytes true os).map decodeProgram

/-- One line of text as command words; none where it does not assemble (R48). -/
def assembleLine (line : List Char) : Option (List Word) :=
  match tokenize line (.letters []) with
  | [] => some []
  | .word cs :: ts =>
    match mnemonicOf cs, parseOperands ts with
    | some m, some os => (lineCommands m os).map fun is => is.map encode
    | _, _ => none
  | .quoted _ :: _ => none
  | .comma :: _ => none

/-- The lines of a text, split at line ends, with `cur` the letters of the line being read, last first. -/
def splitLines : List Char → List Char → List (List Char)
  | [], cur => [cur.reverse]
  | c :: cs, cur => if c = '\n' then cur.reverse :: splitLines cs [] else splitLines cs (c :: cur)

/-- The words of a list of lines, if each assembles. -/
def assembleLines : List (List Char) → Option (List Word)
  | [] => some []
  | l :: ls =>
    match assembleLine l, assembleLines ls with
    | some ws, some rest => some (ws ++ rest)
    | _, _ => none

/-- A program text, one command per line (R48), as command words. -/
def assemble (text : List Char) : Option (List Word) := assembleLines (splitLines text [])

/-- A digit below 16 in hexadecimal, with capital letters. -/
def hexDigit (n : Nat) : Char := if n < 10 then Char.ofNat (48 + n) else Char.ofNat (55 + n)

/-- A mnemonic followed by a byte operand in hexadecimal. -/
def listingWithByte (m : Mnemonic) (b : Byte) : List Char :=
  letters m ++ [' ', '0', 'x', hexDigit (b.toNat / 16), hexDigit (b.toNat % 16)]

/-- The line that R48 writes for a command, its operand in hexadecimal. -/
def listing : Instr → List Char
  | .ciphEnc imm => listingWithByte .ciphEnc imm
  | .ciphDec imm => listingWithByte .ciphDec imm
  | .encStart => letters .encStart
  | .encByte imm => listingWithByte .encByte imm
  | .decStart => letters .decStart
  | .decSym imm => listingWithByte .decSym imm
  | .decEnd => letters .decEnd

end Sys2Proof.Machine
end

