-- ==== Sys2Proof/Machine/Session.lean ====
section
/-! DEFINITION. The host's side of a run (R34, R96): it presents a list of command words, one at a time and in order, and
reads their responses. -/

namespace Sys2Proof.Machine

/-- The block with the words `ws` presented first and with no response given yet. -/
def present (ws : List Word) (s : State) : State :=
  { s with inputs := ws.map HostInput.command ++ s.inputs, responses := [] }

/-- The words `ws` run in order (R34, R50), one step each. The `transcript` of the next state is their responses. -/
def runWords (ws : List Word) (s : State) : Host.Outcome State Fault Refusal :=
  Host.Core.run Sys2Proof.core ws.length (present ws s)

/-- A program, which is a finite list of commands, run in order (R50). -/
def runProgram (p : List Instr) (s : State) : Host.Outcome State Fault Refusal :=
  runWords (p.map encode) s

end Sys2Proof.Machine
end

