-- ==== Sys2Proof/Safety.lean ====
section
/-! DEFINITION. The terms in which a safe run is stated: the invariant of the decoder (R25), which unit owns which state
(R20), and the duties of the host (R91, R92). -/

namespace Sys2Proof.Safety

open Sys2Proof.Machine

/-- R25: `D_ACC < 2^D_CNT`, so every bit of the accumulator at a position not yet placed is 0. -/
abbrev AccBelowCount (r : Registers) : Prop := r.dAcc.toNat < 2 ^ r.dCnt.toNat

/-- The three units of the block (R1). -/
inductive BlockUnit where
  | cipher
  | encoder
  | decoder
  deriving DecidableEq, Repr

/-- The unit that a command belongs to (R41). -/
def unitOf : Instr → BlockUnit
  | .ciphEnc _ => .cipher
  | .ciphDec _ => .cipher
  | .encStart => .encoder
  | .encByte _ => .encoder
  | .decStart => .decoder
  | .decSym _ => .decoder
  | .decEnd => .decoder

/-- Whether a word is a legal command of the unit `u`; an illegal word belongs to none. -/
def wordOfUnit (u : BlockUnit) (w : Word) : Bool :=
  match decode w with
  | .ok i => unitOf i == u
  | .error _ => false

/-- Two states of the registers agree on the state of the unit `u` (R20). The Cipher has none (R19). -/
abbrev AgreeOn (u : BlockUnit) (r r' : Registers) : Prop :=
  match u with
  | .cipher => True
  | .encoder => r.ePol = r'.ePol
  | .decoder => r.dPol = r'.dPol ∧ r.dAcc = r'.dAcc ∧ r.dCnt = r'.dCnt ∧ r.dErr = r'.dErr

/-- What a response says beside STATUS: its code and its data. -/
def outcomeOf (r : Response) : ResponseCode × List Byte := (r.code, r.data)

/-- The code and data of the responses to the words of unit `u`, out of a run of the words `ws`. -/
def outcomesOfUnit (u : BlockUnit) (ws : List Word) (rs : List Response) :
    List (ResponseCode × List Byte) :=
  ((ws.zip rs).filter fun wr => wordOfUnit u wr.1).map fun wr => outcomeOf wr.2

/-- A command together with the number of the message the host sends it for. -/
abbrev Tagged := Nat × Instr

/-- The Encoder's side of the host's duties (R91, R92). `seen` holds the messages begun so far, and `cur` the
message in progress, none right after reset or ENC.START. An ENC.BYTE goes on with the message in progress, or
begins a new one at the start-of-message state. -/
def encoderDuty (seen : List Nat) (cur : Option Nat) : List Tagged → Bool
  | [] => true
  | (m, i) :: rest =>
    match i with
    | .encStart => encoderDuty seen none rest
    | .encByte _ =>
      (cur == some m || (cur == none && !seen.contains m)) && encoderDuty (m :: seen) (some m) rest
    | .ciphEnc _ => encoderDuty seen cur rest
    | .ciphDec _ => encoderDuty seen cur rest
    | .decStart => encoderDuty seen cur rest
    | .decSym _ => encoderDuty seen cur rest
    | .decEnd => encoderDuty seen cur rest

/-- The Decoder's side of the host's duties (R91, R92): as `encoderDuty`. DEC.END ends the message in progress, or is
all there is of a message without symbols, and leaves the start-of-message state. -/
def decoderDuty (seen : List Nat) (cur : Option Nat) : List Tagged → Bool
  | [] => true
  | (m, i) :: rest =>
    match i with
    | .decStart => decoderDuty seen none rest
    | .decSym _ =>
      (cur == some m || (cur == none && !seen.contains m)) && decoderDuty (m :: seen) (some m) rest
    | .decEnd =>
      (cur == some m || (cur == none && !seen.contains m)) && decoderDuty (m :: seen) none rest
    | .ciphEnc _ => decoderDuty seen cur rest
    | .ciphDec _ => decoderDuty seen cur rest
    | .encStart => decoderDuty seen cur rest
    | .encByte _ => decoderDuty seen cur rest

/-- The bytes that a tagged program encodes for the message `m`. -/
def bytesEncodedFor (m : Nat) (p : List Tagged) : List Byte :=
  p.filterMap fun t =>
    match t with
    | (k, .encByte b) => if k = m then some b else none
    | _ => none

/-- The wire bytes that the responses to a tagged program carry for the encoded message `m`. -/
def wireBytesFor (m : Nat) (p : List Tagged) (rs : List Response) : List Byte :=
  (p.zip rs).flatMap fun tr =>
    match tr with
    | ((k, .encByte _), r) => if k = m then r.data else []
    | _ => []

/-- The symbols, as wire bytes, that a tagged program sends to the Decoder for the message `m`. -/
def symbolsSentFor (m : Nat) (p : List Tagged) : List Byte :=
  p.filterMap fun t =>
    match t with
    | (k, .decSym x) => if k = m then some x else none
    | _ => none

/-- Whether a tagged command is a DEC.SYM or a DEC.END of the message `m`. -/
def decodesFor (m : Nat) : Tagged → Bool
  | (k, .decSym _) => k == m
  | (k, .decEnd) => k == m
  | _ => false

/-- The responses, out of those to a tagged program, to the DEC.SYM and DEC.END of the message `m`. -/
def decodeResponsesFor (m : Nat) (p : List Tagged) (rs : List Response) : List Response :=
  ((p.zip rs).filter fun tr => decodesFor m tr.1).map fun tr => tr.2

end Sys2Proof.Safety
end

