-- ==== Sys2Proof/Certificates/Slice0/Obligations.lean ====
section
/-! DEFINITION. The statements for the provers, from the numbered rules of spec/: decoding, the step, reset, STATUS and
responses, the Cipher, the Line Encoder, the Line Decoder, and what the units and whole messages do. -/

open Sys2Proof Sys2Proof.Machine Sys2Proof.Safety

namespace Sys2Proof.Claims

/-- A state that differs from `s` only in its registers and in one more response (R23). -/
abbrev answer (s : State) (regs : Registers) (code : ResponseCode) (data : List Byte) : State :=
  { config := s.config
    regs := regs
    inputs := s.inputs
    responses := { code := code, data := data, status := status regs } :: s.responses }

/-- The registers with the decoder at the start of a message (R71, R73). -/
abbrev startOfDecoding (r : Registers) : Registers :=
  { ePol := r.ePol, dPol := .pos, dAcc := 0x00#8, dCnt := 0#3, dErr := none }

/-- The decoder of these registers is at the start of a message (R15 to R18). -/
abbrev atStartOfDecoding (r : Registers) : Prop :=
  r.dPol = .pos ∧ r.dAcc = 0x00#8 ∧ r.dCnt = 0#3 ∧ r.dErr = none

/-- One turn of the loop of ENC.BYTE in R64: the polarity and the wire bytes emitted so far. -/
def encByteTurn (imm : Byte) (st : Polarity × List Byte) (i : Nat) : Polarity × List Byte :=
  if imm.getLsbD i = false then (st.1, st.2 ++ [0x01#8])
  else if st.1 = .pos then (.neg, st.2 ++ [0x02#8])
  else (.pos, st.2 ++ [0x00#8])

/-- The loop of ENC.BYTE in R64: `i` from 0 to 7. -/
def encByteLoop (imm : Byte) (p : Polarity) : Polarity × List Byte :=
  [0, 1, 2, 3, 4, 5, 6, 7].foldl (encByteTurn imm) (p, [])

/-- The number of 1 bits of a byte below bit `i`. -/
def onesBelow (imm : Byte) (i : Nat) : Nat := (List.range i).countP fun j => imm.getLsbD j

/-- The symbols DEC.SYM accepts (R72): the wire byte, the polarity before, the polarity after and the bit. -/
def acceptedSymbols : List (Byte × Polarity × Polarity × Byte) :=
  [(0x01#8, .pos, .pos, 0#8), (0x01#8, .neg, .neg, 0#8), (0x02#8, .pos, .neg, 1#8), (0x00#8, .neg, .pos, 1#8)]

/-- The symbols DEC.SYM rejects by polarity (R72): the wire byte, the polarity before and the reason. -/
def misplacedMarks : List (Byte × Polarity × Violation) :=
  [(0x02#8, .neg, .unexpectedPositive), (0x00#8, .pos, .unexpectedNegative)]

/-- The number of data bytes of the response to a command (the table of R23). -/
def dataLength (before : Registers) (code : ResponseCode) : Instr → Nat
  | .ciphEnc _ => if code = .ok then 1 else 0
  | .ciphDec _ => if code = .ok then 1 else 0
  | .encByte _ => 8
  | .decSym _ => if code = .ok ∧ before.dCnt = 7#3 then 1 else 0
  | .encStart => 0
  | .decStart => 0
  | .decEnd => 0

/-- The number of data bytes of the response to a word: none for an illegal one (R23). -/
def wordDataLength (w : Word) (before : Registers) (code : ResponseCode) : Nat :=
  match decode w with
  | .ok i => dataLength before code i
  | .error _ => 0

/-- The codes that a command may respond (the column 'raised by' of R24). -/
def codesOf : Instr → List ResponseCode
  | .ciphEnc _ => [.ok, .invalidInput]
  | .ciphDec _ => [.ok, .decodingError]
  | .encStart => [.ok]
  | .encByte _ => [.ok]
  | .decStart => [.ok]
  | .decSym _ =>
    [.ok, .unexpectedPositive, .unexpectedNegative, .unknownSymbol, .ignoredAfterError]
  | .decEnd => [.ok, .unexpectedPositive, .unexpectedNegative, .unknownSymbol, .truncated]

/-- Whether a word is a legal command (R43). -/
def legalWord (w : Word) : Bool :=
  match decode w with
  | .ok _ => true
  | .error _ => false

end Sys2Proof.Claims

open Sys2Proof.Claims

/-! ### Decoding and encoding -/

/-- R41: the seven rows of the opcode map. -/
def Obligations.OpcodeMapDecodes : Prop :=
  (∀ imm : Byte, decode (0x01#8 ++ imm) = .ok (.ciphEnc imm)) ∧
  (∀ imm : Byte, decode (0x02#8 ++ imm) = .ok (.ciphDec imm)) ∧
  decode 0x1000#16 = .ok .encStart ∧
  (∀ imm : Byte, decode (0x11#8 ++ imm) = .ok (.encByte imm)) ∧
  decode 0x2000#16 = .ok .decStart ∧
  (∀ imm : Byte, decode (0x21#8 ++ imm) = .ok (.decSym imm)) ∧
  decode 0x2200#16 = .ok .decEnd

/-- Words written out bit by bit from the encodings of the opcode table, one of each command. -/
def Obligations.TableWordsDecode : Prop :=
  decode 0b0000000101000001#16 = .ok (.ciphEnc 0x41#8) ∧
  decode 0b0000001010111111#16 = .ok (.ciphDec 0xBF#8) ∧
  decode 0b0001000000000000#16 = .ok .encStart ∧
  decode 0b0001000110111111#16 = .ok (.encByte 0xBF#8) ∧
  decode 0b0010000000000000#16 = .ok .decStart ∧
  decode 0b0010000100000010#16 = .ok (.decSym 0x02#8) ∧
  decode 0b0010001000000000#16 = .ok .decEnd

/-- Decoding a command's word gives the command back, whatever its operand (R39, R41). -/
def Obligations.DecodeOfEncode : Prop := ∀ i : Instr, decode (encode i) = .ok i

/-- Each command has one word only: a word that decodes to a command is that command's word (R39, R41). -/
def Obligations.EncodeOfDecode : Prop :=
  ∀ (w : Word) (i : Instr), decode w = .ok i → encode i = w

/-- R42: a START or END opcode with a nonzero operand is illegal, responds ILLEGAL_COMMAND with no data and changes
no state; with a zero operand it is legal. -/
def Obligations.ReservedOperandIsIllegal : Prop :=
  (∀ (op imm : Byte) (s : State) (rest : List HostInput),
    (op = 0x10#8 ∨ op = 0x20#8 ∨ op = 0x22#8) → imm ≠ 0x00#8 → s.inputs = .command (op ++ imm) :: rest →
      decode (op ++ imm) = .error (.reservedOperand op imm) ∧
      step s = .next (answer { s with inputs := rest } s.regs .illegalCommand [])) ∧
  (∀ op : Byte, (op = 0x10#8 ∨ op = 0x20#8 ∨ op = 0x22#8) → ∃ i, decode (op ++ 0x00#8) = .ok i)

/-- R43: an opcode outside the opcode map is illegal whatever its operand, and responds as R42 says. -/
def Obligations.UnknownOpcodeIsIllegal : Prop :=
  ∀ (op imm : Byte) (s : State) (rest : List HostInput),
    (op.toNat = 0x00 ∨ (0x03 ≤ op.toNat ∧ op.toNat ≤ 0x0F) ∨ (0x12 ≤ op.toNat ∧ op.toNat ≤ 0x1F) ∨
      0x23 ≤ op.toNat) →
    s.inputs = .command (op ++ imm) :: rest →
      decode (op ++ imm) = .error (.illegalOpcode op) ∧
      step s = .next (answer { s with inputs := rest } s.regs .illegalCommand [])

/-- R43: of the 65536 words 1027 are commands and 64509 are illegal. -/
def Obligations.LegalWordCount : Prop :=
  Nat.card { w : Word // ∃ i, decode w = .ok i } = 1027 ∧
  Nat.card { w : Word // ∃ e, decode w = .error e } = 64509

/-- The words that decode are exactly those whose fields are well formed (R41 to R43). -/
def Obligations.DecodesIffWellFormed : Prop :=
  ∀ w : Word, (∃ i, decode w = .ok i) ↔ (fieldsOf w).wellFormed = true

/-- R80: an illegal word is decided from the word alone and changes no state, and a run goes on as if it had not been
issued: every legal command gets the same response, STATUS included, and the registers end the same. -/
def Obligations.IllegalWordsLeaveTheRunAlone : Prop :=
  (∀ (w : Word) (e : DecodeError) (s : State) (rest : List HostInput),
    decode w = .error e → s.inputs = .command w :: rest →
      step s = .next (answer { s with inputs := rest } s.regs .illegalCommand [])) ∧
  (∀ (ws : List Word) (s : State), ∃ t t' : State,
    runWords ws s = .next t ∧ runWords (ws.filter legalWord) s = .next t' ∧ t.regs = t'.regs ∧
      ((ws.zip t.transcript).filter fun wr => legalWord wr.1).map (fun wr => wr.2) = t'.transcript)

/-- R48: the line written for a command, its operand in hexadecimal, assembles to the command's word. The layout of the
line (one blank, capital digits) is the model's choice (log entry 9). -/
def Obligations.ListingAssembles : Prop := ∀ i : Instr, assembleLine (listing i) = some [encode i]

/-- R49: what the four pseudo-instructions expand to, an empty list of operands included. -/
def Obligations.PseudoInstructionsExpand : Prop :=
  ∀ bs : List Byte,
    lineCommands .encryptMsg (bs.map fun b => .number b.toNat) = some (bs.map .ciphEnc) ∧
    lineCommands .decryptMsg (bs.map fun b => .number b.toNat) = some (bs.map .ciphDec) ∧
    lineCommands .encodeMsg (bs.map fun b => .number b.toNat) = some (.encStart :: bs.map .encByte) ∧
    lineCommands .decodeMsg (bs.map fun b => .number b.toNat) =
      some (.decStart :: (bs.map .decSym ++ [.decEnd]))

/-! ### The step -/

/-- A step at a state whose next input is a word that decodes to `i` is `exec i` with that input taken (R5, R34). -/
def Obligations.StepRunsDecodedInstruction : Prop :=
  ∀ (s : State) (w : Word) (rest : List HostInput) (i : Instr),
    s.inputs = .command w :: rest → decode w = .ok i → step s = exec i { s with inputs := rest }

/-- Where the host presents nothing, a step changes nothing: the model's choice (log entry 3). -/
def Obligations.StepWaitsForInput : Prop := ∀ s : State, s.inputs = [] → step s = .next s

/-- Every step answers a next state: no word, no operand and no state stops the block (R43, R77). -/
def Obligations.StepAlwaysAnswers : Prop := ∀ s : State, ∃ t : State, step s = .next t

/-- Each step takes the host's inputs one at a time and in order (R34), and gives one response for a command, which shows
the state after the command (R23), and none otherwise: for reset by R88. That a step with no input gives no response is the
model's choice (log entry 3), and so is that reset leaves the inputs still to come (log entry 4). -/
def Obligations.StepTakesOneInput : Prop :=
  ∀ s t : State, step s = .next t →
    t.inputs = s.inputs.tail ∧
    ((∃ w rest, s.inputs = .command w :: rest) →
      ∃ r : Response, t.responses = r :: s.responses ∧ r.status = status t.regs) ∧
    ((∀ w rest, s.inputs ≠ .command w :: rest) → t.responses = s.responses)

/-- KEY and REJECT_TRUNCATED hold for the whole life of the block: no step, reset included, changes them (R6, R88). -/
def Obligations.ConfigurationNeverChanges : Prop :=
  ∀ s t : State, step s = .next t → t.config = s.config

/-! ### Reset -/

/-- R88: reset puts the five registers to their reset values, STATUS to 0x0000, leaves the configuration, and gives no
response; the state after reset has those values. -/
def Obligations.ResetLeavesResetValues : Prop :=
  (∀ (s : State) (rest : List HostInput), s.inputs = .reset :: rest →
    ∃ t : State, step s = .next t ∧
      t.regs.ePol = .pos ∧ t.regs.dPol = .pos ∧ t.regs.dAcc = 0x00#8 ∧ t.regs.dCnt = 0#3 ∧ t.regs.dErr = none ∧
      status t.regs = 0x0000#16 ∧ t.config = s.config ∧ t.responses = s.responses) ∧
  State.reset.regs.ePol = .pos ∧ State.reset.regs.dPol = .pos ∧ State.reset.regs.dAcc = 0x00#8 ∧
  State.reset.regs.dCnt = 0#3 ∧ State.reset.regs.dErr = none ∧ status State.reset.regs = 0x0000#16

/-- The default of REJECT_TRUNCATED is false (R7), and the state the model starts in, `State.reset`, has it. This is the
model's choice of a start state (log entry 1): it says nothing of a block configured otherwise, whose policy the reset input
keeps (R88). -/
def Obligations.ResetHasDefaultTruncationPolicy : Prop := State.reset.config.rejectTruncated = false

/-- R89: ENC.START followed by DEC.START leaves the registers as reset does, from any state, and either of them issued
right after reset changes no register. -/
def Obligations.ResetEqualsBothStarts : Prop :=
  (∀ (s u : State) (rest : List HostInput), u.inputs = .reset :: rest →
    ∃ t v : State, runProgram [.encStart, .decStart] s = .next t ∧ step u = .next v ∧ t.regs = v.regs) ∧
  (∀ s : State, s.regs = State.reset.regs →
    exec .encStart s = .next (answer s s.regs .ok []) ∧ exec .decStart s = .next (answer s s.regs .ok []))

/-! ### STATUS and responses -/

/-- R22: the fields of STATUS, and its value at the reset values; it comes back in every response, as that of the state
after the command. -/
def Obligations.StatusLayout : Prop :=
  (∀ r : Registers,
    (status r).extractLsb' 0 1 = r.ePol.bit ∧ (status r).extractLsb' 1 1 = r.dPol.bit ∧
    (status r).extractLsb' 2 3 = r.dCnt ∧ (status r).extractLsb' 5 3 = errorBits r.dErr ∧
    (status r).extractLsb' 8 8 = r.dAcc) ∧
  (∀ p : Polarity, p.bit = 0#1 ↔ p = .pos) ∧ (∀ p : Polarity, p.bit = 1#1 ↔ p = .neg) ∧
  errorBits none = 0#3 ∧ errorBits (some .unexpectedPositive) = 3#3 ∧
  errorBits (some .unexpectedNegative) = 4#3 ∧ errorBits (some .unknownSymbol) = 5#3 ∧
  status State.reset.regs = 0x0000#16 ∧
  (∀ (s : State) (w : Word) (rest : List HostInput), s.inputs = .command w :: rest →
    ∃ (t : State) (r : Response), step s = .next t ∧ t.responses = r :: s.responses ∧ r.status = status t.regs)

/-- Every bit of the state is visible in STATUS: the registers can be read back from it (R27). -/
def Obligations.StatusShowsWholeState : Prop :=
  ∀ r : Registers, registersOfStatus (status r) = some r

/-- R23: every command word gets one response, whose data have the length of the table and whose STATUS is that of the
state after the command. -/
def Obligations.ResponseHasTableLength : Prop :=
  ∀ (s : State) (w : Word) (rest : List HostInput), s.inputs = .command w :: rest →
    ∃ (t : State) (r : Response), step s = .next t ∧ t.responses = r :: s.responses ∧
      r.status = status t.regs ∧ r.data.length = wordDataLength w s.regs r.code

/-- The numbers of the response codes, none of them reserved, and which command may respond which (R24). -/
def Obligations.CodesAreRaisedByTheirCommands : Prop :=
  [ResponseCode.ok, .invalidInput, .decodingError, .unexpectedPositive, .unexpectedNegative, .unknownSymbol,
    .truncated, .ignoredAfterError, .illegalCommand].map ResponseCode.number = [0#4, 1#4, 2#4, 3#4, 4#4, 5#4, 6#4, 7#4, 8#4] ∧
  (∀ c : ResponseCode, c.number.toNat ≤ 8) ∧
  (∀ (i : Instr) (s : State), ∃ (t : State) (r : Response),
    exec i s = .next t ∧ t.responses = r :: s.responses ∧ r.code ∈ codesOf i)

/-- R81: which code is returned where two could be: an illegal word before all else, a held error before the symbol check,
and a held error before TRUNCATED. -/
def Obligations.OneCodeByPriority : Prop :=
  (∀ (w : Word) (e : DecodeError) (s : State) (rest : List HostInput),
    decode w = .error e → s.inputs = .command w :: rest →
      step s = .next (answer { s with inputs := rest } s.regs .illegalCommand [])) ∧
  (∀ (imm : Byte) (s : State), s.regs.dErr ≠ none →
    exec (.decSym imm) s = .next (answer s s.regs .ignoredAfterError [])) ∧
  (∀ (s : State) (v : Violation), s.regs.dErr = some v →
    exec .decEnd s = .next (answer s (startOfDecoding s.regs) v.code []))

/-! ### What a command leaves alone -/

/-- Every command answers a next state in which the configuration, the inputs to come and the responses given before are
unchanged; `E_POL` is written by ENC.START and ENC.BYTE only, and the decoder's registers by DEC.START, DEC.SYM and
DEC.END only (R13 to R19). -/
def Obligations.CommandFrame : Prop :=
  ∀ (i : Instr) (s : State), ∃ (t : State) (r : Response), exec i s = .next t ∧
    t.config = s.config ∧ t.inputs = s.inputs ∧ t.responses = r :: s.responses ∧
    (unitOf i ≠ .encoder → t.regs.ePol = s.regs.ePol) ∧
    (unitOf i ≠ .decoder → t.regs.dPol = s.regs.dPol ∧ t.regs.dAcc = s.regs.dAcc ∧
      t.regs.dCnt = s.regs.dCnt ∧ t.regs.dErr = s.regs.dErr)

/-- R20: no command writes the state of a unit not its own, and none reads it: in two states that agree on its own unit's
state, a command gives the same code and data and leaves that state the same. Only the Cipher reads KEY, and only
DEC.END reads REJECT_TRUNCATED. -/
def Obligations.UnitsAreDisjoint : Prop :=
  (∀ (i : Instr) (u : BlockUnit) (s t : State), exec i s = .next t → u ≠ unitOf i → AgreeOn u s.regs t.regs) ∧
  (∀ (i : Instr) (s s' : State),
    AgreeOn (unitOf i) s.regs s'.regs →
    (unitOf i = .cipher → s.config.key = s'.config.key) →
    (i = .decEnd → s.config.rejectTruncated = s'.config.rejectTruncated) →
    ∃ (t t' : State) (r r' : Response), exec i s = .next t ∧ exec i s' = .next t' ∧
      t.responses = r :: s.responses ∧ t'.responses = r' :: s'.responses ∧
      r.code = r'.code ∧ r.data = r'.data ∧ AgreeOn (unitOf i) t.regs t'.regs)

/-- R35: a run in which commands of several units, and illegal words, are interleaved gives each unit the results and the
state that its own commands alone give. -/
def Obligations.InterleavedUnitsDoNotInterfere : Prop :=
  ∀ (u : BlockUnit) (ws : List Word) (s : State), ∃ t t' : State,
    runWords ws s = .next t ∧ runWords (ws.filter (wordOfUnit u)) s = .next t' ∧
      AgreeOn u t.regs t'.regs ∧ outcomesOfUnit u ws t.transcript = t'.transcript.map outcomeOf

/-- R25: every step keeps `D_ACC < 2^D_CNT`. -/
def Obligations.AccumulatorStaysBelowCount : Prop :=
  ∀ s t : State, AccBelowCount s.regs → step s = .next t → AccBelowCount t.regs

/-- R25: `D_ACC < 2^D_CNT` holds at reset, and after DEC.START and DEC.END from any state. -/
def Obligations.AccumulatorBelowCountAtStart : Prop :=
  AccBelowCount State.reset.regs ∧
  ∀ s : State, ∃ t u : State, exec .decStart s = .next t ∧ exec .decEnd s = .next u ∧
    AccBelowCount t.regs ∧ AccBelowCount u.regs

/-! ### The Cipher -/

/-- R54: CIPH.ENC. -/
def Obligations.CiphEncEncrypts : Prop :=
  (∀ imm : Byte, decode (0x01#8 ++ imm) = .ok (.ciphEnc imm)) ∧
  (∀ (imm : Byte) (s : State), imm.toNat ≤ 127 →
    exec (.ciphEnc imm) s = .next (answer s s.regs .ok [imm ^^^ s.config.key])) ∧
  (∀ (imm : Byte) (s : State), 127 < imm.toNat →
    exec (.ciphEnc imm) s = .next (answer s s.regs .invalidInput []))

/-- R55: CIPH.DEC. -/
def Obligations.CiphDecDecrypts : Prop :=
  (∀ imm : Byte, decode (0x02#8 ++ imm) = .ok (.ciphDec imm)) ∧
  (∀ (imm : Byte) (s : State), (imm ^^^ s.config.key).toNat ≤ 127 →
    exec (.ciphDec imm) s = .next (answer s s.regs .ok [imm ^^^ s.config.key])) ∧
  (∀ (imm : Byte) (s : State), 127 < (imm ^^^ s.config.key).toNat →
    exec (.ciphDec imm) s = .next (answer s s.regs .decodingError []))

/-- R58: a character up to 127 is presented as itself and encrypted; one above 127, however it is presented, is rejected.
From 128 to 255 the code point itself is a presentation. A code point above 255 taken modulo 256 is none where that
falls into 0 to 127. That from 128 to 255 every byte with bit 7 set is a presentation, and not the code point alone, is the
model's reading of the rule's parenthesis (DEDUCED, log entry 11). -/
def Obligations.CharacterPort : Prop :=
  (∀ (c : Nat) (imm : Byte) (s : State), c ≤ 127 → presents c imm = true →
    imm = BitVec.ofNat 8 c ∧
      exec (.ciphEnc imm) s = .next (answer s s.regs .ok [BitVec.ofNat 8 c ^^^ s.config.key])) ∧
  (∀ (c : Nat) (imm : Byte) (s : State), 127 < c → presents c imm = true →
    exec (.ciphEnc imm) s = .next (answer s s.regs .invalidInput [])) ∧
  (∀ c : Nat, c ≤ 255 → presents c (BitVec.ofNat 8 c) = true) ∧
  (∀ (c : Nat) (imm : Byte), 127 < c → (presents c imm = true ↔ imm.getLsbD 7 = true)) ∧
  (∀ c : Nat, 255 < c → c % 256 ≤ 127 → presents c (BitVec.ofNat 8 c) = false)

/-- R53: decryption undoes encryption, and encryption undoes decryption. -/
def Obligations.CipherRoundTrip : Prop :=
  (∀ (cfg : Config) (cs : List Nat) (bs : List Byte),
    encryptMessage cfg cs = .ok bs → decryptMessage cfg bs = .ok cs) ∧
  (∀ (cfg : Config) (cs : List Nat) (bs : List Byte),
    decryptMessage cfg bs = .ok cs → encryptMessage cfg cs = .ok bs)

/-- What decryption with another key gives (R57): an error exactly where the keys differ in bit 7 and the message is not
empty, and else the garbled text; a message that is not empty comes back only under the same key. -/
def Obligations.KeyMismatchGarbles : Prop :=
  ∀ (cfg cfg' : Config) (cs : List Nat), (∀ c ∈ cs, c ≤ 127) →
    ∃ bs : List Byte, encryptMessage cfg cs = .ok bs ∧
      (cs ≠ [] → (cfg.key ^^^ cfg'.key).getLsbD 7 = true → decryptMessage cfg' bs = .error .decoding) ∧
      (cs = [] ∨ (cfg.key ^^^ cfg'.key).getLsbD 7 = false →
        decryptMessage cfg' bs =
          .ok (cs.map fun c => (BitVec.ofNat 8 c ^^^ (cfg.key ^^^ cfg'.key)).toNat)) ∧
      (cs ≠ [] → decryptMessage cfg' bs = .ok cs → cfg.key = cfg'.key)

/-- R56: the results read off the responses of ENCRYPT.MSG and DECRYPT.MSG are those of `encrypt` and `decrypt`, with each
character presented as R58 allows. The data of a failed message are discarded. -/
def Obligations.CipherMessagesCompose : Prop :=
  (∀ (cs : List Nat) (imms : List Byte) (s : State),
    List.Forall₂ (fun c imm => presents c imm = true) cs imms →
    ∃ t : State, runProgram (encryptProgram imms) s = .next t ∧ t.regs = s.regs ∧
      encryptResult t.transcript = encryptMessage s.config cs) ∧
  (∀ (bs : List Byte) (s : State), ∃ t : State, runProgram (decryptProgram bs) s = .next t ∧
    t.regs = s.regs ∧ decryptResult t.transcript = decryptMessage s.config bs)

/-! ### The Line Encoder -/

/-- R63: ENC.START. -/
def Obligations.EncStartSetsPositive : Prop :=
  decode 0x1000#16 = .ok .encStart ∧
  (∀ s : State, exec .encStart s = .next (answer s { s.regs with ePol := .pos } .ok [])) ∧
  (∀ imm : Byte, imm ≠ 0x00#8 → decode (0x10#8 ++ imm) = .error (.reservedOperand 0x10#8 imm)) ∧
  (∀ (imm : Byte) (s : State) (rest : List HostInput), imm ≠ 0x00#8 →
    s.inputs = .command (0x10#8 ++ imm) :: rest →
      step s = .next (answer { s with inputs := rest } s.regs .illegalCommand [])) ∧
  State.reset.regs.ePol = .pos

/-- R64: ENC.BYTE emits what the loop of the rule emits, and leaves in `E_POL` the polarity the loop ends with. -/
def Obligations.EncByteRunsItsLoop : Prop :=
  (∀ imm : Byte, decode (0x11#8 ++ imm) = .ok (.encByte imm)) ∧
  (∀ (imm : Byte) (s : State),
    exec (.encByte imm) s =
      .next (answer s { s.regs with ePol := (encByteLoop imm s.regs.ePol).1 } .ok
        (encByteLoop imm s.regs.ePol).2))

/-- Each wire byte of ENC.BYTE in closed form: that of bit `i` depends on the polarity before the command and on the
number of 1 bits below `i` (R62, R64). -/
def Obligations.EncByteWireBytes : Prop :=
  ∀ (imm : Byte) (s : State), ∃ (t : State) (r : Response),
    exec (.encByte imm) s = .next t ∧ t.responses = r :: s.responses ∧ r.code = .ok ∧ r.data.length = 8 ∧
      ∀ i : Nat, i < 8 →
        r.data[i]? = some
          (if imm.getLsbD i = false then 0x01#8
            else if flipIf (onesBelow imm i % 2 == 1) s.regs.ePol = .pos then 0x02#8 else 0x00#8)

/-- R65: ENC.BYTE flips `E_POL` exactly when the number of 1 bits of the byte is odd. -/
def Obligations.EncBytePolarity : Prop :=
  ∀ (imm : Byte) (s : State), ∃ t : State, exec (.encByte imm) s = .next t ∧
    t.regs.ePol = flipIf (onesBelow imm 8 % 2 == 1) s.regs.ePol

/-- R60: eight symbols for each byte, and symbol `8k + i` stands for bit `i` of byte `k`. -/
def Obligations.EncodeLengthAndOrder : Prop :=
  ∀ bs : List Byte, (encodeMessage bs).length = 8 * bs.length ∧
    ∀ (k i : Nat) (b : Byte), i < 8 → bs[k]? = some b →
      ((encodeMessage bs)[8 * k + i]?).map Symbol.bit = some (b.getLsbD i)

/-- R62: the marks of an encoded message alternate, the first positive; each symbol in closed form; and the polarity
after the whole message is POS flipped by the parity of its 1 bits. -/
def Obligations.EncodedMarksAlternate : Prop :=
  (∀ bs : List Byte,
    (encodeMessage bs).filter (fun x => x != .zero) =
      (List.range ((messageBits bs).count true)).map fun k =>
        if k % 2 = 0 then Symbol.positiveMark else Symbol.negativeMark) ∧
  (∀ (bs : List Byte) (j : Nat) (bit : Bool), (messageBits bs)[j]? = some bit →
    (encodeMessage bs)[j]? = some
      (if bit = false then .zero
        else if ((messageBits bs).take j).count true % 2 = 0 then .positiveMark else .negativeMark)) ∧
  (∀ bs : List Byte,
    (bs.foldl (fun st b => (byteBits b).foldl encodeStep st) ((.pos, []) : Polarity × List Symbol)).1 =
      flipIf (oddOnes (messageBits bs)) .pos)

/-- R66: the data of ENCODE.MSG are the wire bytes of `encode`, and `E_POL` ends at POS flipped by the message's parity,
whatever commands of other units, and illegal words, are interleaved. -/
def Obligations.EncodeMessageComposes : Prop :=
  ∀ (bs : List Byte) (ws : List Word) (s : State),
    ws.filter (wordOfUnit .encoder) = (encodeProgram bs).map encode →
    ∃ t : State, runWords ws s = .next t ∧
      (outcomesOfUnit .encoder ws t.transcript).flatMap (fun o => o.2) = encodeToWire bs ∧
      t.regs.ePol = flipIf (oddOnes (messageBits bs)) .pos

/-- A host that keeps the Encoder's duties, starting from POS, gets for each message the wire bytes of `encode` of that
message's bytes, however its messages and other commands follow one another (R66, R91, R92). -/
def Obligations.DutifulHostEncodesEachMessage : Prop :=
  ∀ (p : List Tagged) (s : State), s.regs.ePol = .pos → encoderDuty [] none p = true →
    ∃ t : State, runProgram (p.map fun c => c.2) s = .next t ∧
      ∀ m : Nat, wireBytesFor m p t.transcript = encodeToWire (bytesEncodedFor m p)

/-- What a message sent without ENC.START becomes (R91): if the message before it left NEG and it has a 1 bit, a decoder
rejects it with an unexpected negative mark; else it is the same as with ENC.START. -/
def Obligations.OmittedEncStart : Prop :=
  ∀ (bs bs' : List Byte) (s : State), ∃ t : State,
    runProgram (encodeProgram bs ++ bs'.map .encByte) s = .next t ∧
      (oddOnes (messageBits bs) = true → true ∈ messageBits bs' → ∀ cfg : Config,
        decodeMessage cfg (responseData (t.transcript.drop (bs.length + 1))) =
          .error (.protocolViolation .unexpectedNegative)) ∧
      (oddOnes (messageBits bs) = false ∨ true ∉ messageBits bs' →
        responseData (t.transcript.drop (bs.length + 1)) = encodeToWire bs')

/-! ### Symbols on the wire -/

/-- R45: the three wire bytes, the symbols they stand for, and that the Encoder emits, and the Decoder accepts, no
other. -/
def Obligations.WireBytesOfSymbols : Prop :=
  Symbol.wire .zero = 0x01#8 ∧ Symbol.wire .positiveMark = 0x02#8 ∧ Symbol.wire .negativeMark = 0x00#8 ∧
  symbolOfWire 0x01#8 = some .zero ∧ symbolOfWire 0x02#8 = some .positiveMark ∧
  symbolOfWire 0x00#8 = some .negativeMark ∧
  (∀ (x : Byte) (y : Symbol), symbolOfWire x = some y ↔ x = y.wire) ∧
  (∀ (imm : Byte) (s : State), ∃ (t : State) (r : Response), exec (.encByte imm) s = .next t ∧
    t.responses = r :: s.responses ∧ ∀ x ∈ r.data, x = 0x01#8 ∨ x = 0x02#8 ∨ x = 0x00#8) ∧
  (∀ (imm : Byte) (s : State), ∃ (t : State) (r : Response), exec (.decSym imm) s = .next t ∧
    t.responses = r :: s.responses ∧ (r.code = .ok → imm = 0x01#8 ∨ imm = 0x02#8 ∨ imm = 0x00#8))

/-- R46: no byte from 0x03 up is a symbol, and DEC.SYM of one responds UNKNOWN_SYMBOL while no error is held. -/
def Obligations.UnknownWireBytes : Prop :=
  ∀ imm : Byte, 3 ≤ imm.toNat → symbolOfWire imm = none ∧
    ∀ s : State, s.regs.dErr = none →
      exec (.decSym imm) s = .next (answer s { s.regs with dErr := some .unknownSymbol } .unknownSymbol [])

/-! ### The Line Decoder -/

/-- R71: DEC.START. -/
def Obligations.DecStartClearsDecoder : Prop :=
  decode 0x2000#16 = .ok .decStart ∧
  (∀ s : State, exec .decStart s = .next (answer s (startOfDecoding s.regs) .ok [])) ∧
  (∀ imm : Byte, imm ≠ 0x00#8 → decode (0x20#8 ++ imm) = .error (.reservedOperand 0x20#8 imm)) ∧
  (∀ (imm : Byte) (s : State) (rest : List HostInput), imm ≠ 0x00#8 →
    s.inputs = .command (0x20#8 ++ imm) :: rest →
      step s = .next (answer { s with inputs := rest } s.regs .illegalCommand []))

/-- R72: DEC.SYM. While an error is held it does nothing; an accepted symbol places its bit and the eighth completes the
byte; a failing symbol writes only `D_ERR`. -/
def Obligations.DecSymDecodes : Prop :=
  (∀ imm : Byte, decode (0x21#8 ++ imm) = .ok (.decSym imm)) ∧
  (∀ (imm : Byte) (s : State), s.regs.dErr ≠ none →
    exec (.decSym imm) s = .next (answer s s.regs .ignoredAfterError [])) ∧
  (∀ (imm : Byte) (p q : Polarity) (bit : Byte) (s : State), (imm, p, q, bit) ∈ acceptedSymbols →
    s.regs.dErr = none → s.regs.dPol = p → s.regs.dCnt ≠ 7#3 →
      exec (.decSym imm) s =
        .next (answer s
          { s.regs with
            dPol := q, dAcc := s.regs.dAcc ||| (bit <<< s.regs.dCnt.toNat), dCnt := s.regs.dCnt + 1#3 }
          .ok [])) ∧
  (∀ (imm : Byte) (p q : Polarity) (bit : Byte) (s : State), (imm, p, q, bit) ∈ acceptedSymbols →
    s.regs.dErr = none → s.regs.dPol = p → s.regs.dCnt = 7#3 →
      exec (.decSym imm) s =
        .next (answer s { s.regs with dPol := q, dAcc := 0x00#8, dCnt := 0#3 } .ok
          [s.regs.dAcc ||| (bit <<< 7)])) ∧
  (∀ (imm : Byte) (p : Polarity) (v : Violation) (s : State), (imm, p, v) ∈ misplacedMarks →
    s.regs.dErr = none → s.regs.dPol = p →
      exec (.decSym imm) s = .next (answer s { s.regs with dErr := some v } v.code [])) ∧
  (∀ (imm : Byte) (s : State), 0x03 ≤ imm.toNat → s.regs.dErr = none →
    exec (.decSym imm) s = .next (answer s { s.regs with dErr := some .unknownSymbol } .unknownSymbol []))

/-- R73: DEC.END reports the held error, or TRUNCATED for a partial byte under REJECT_TRUNCATED, or OK, and leaves the
decoder as DEC.START leaves it. -/
def Obligations.DecEndReportsOutcome : Prop :=
  decode 0x2200#16 = .ok .decEnd ∧
  (∀ imm : Byte, imm ≠ 0x00#8 → decode (0x22#8 ++ imm) = .error (.reservedOperand 0x22#8 imm)) ∧
  (∀ (s : State) (v : Violation), s.regs.dErr = some v →
    exec .decEnd s = .next (answer s (startOfDecoding s.regs) v.code [])) ∧
  (∀ s : State, s.regs.dErr = none → s.regs.dCnt ≠ 0#3 → s.config.rejectTruncated = true →
    exec .decEnd s = .next (answer s (startOfDecoding s.regs) .truncated [])) ∧
  (∀ s : State, s.regs.dErr = none → s.regs.dCnt = 0#3 ∨ s.config.rejectTruncated = false →
    exec .decEnd s = .next (answer s (startOfDecoding s.regs) .ok [])) ∧
  Violation.unexpectedPositive.code.number = 3#4 ∧ Violation.unexpectedNegative.code.number = 4#4 ∧
  Violation.unknownSymbol.code.number = 5#4

/-- R79: a failing DEC.SYM leaves its code in `D_ERR`; from then on every DEC.SYM is ignored with no state change, until
DEC.START, DEC.END or reset clears the error. The Cipher's errors leave nothing behind. -/
def Obligations.ErrorIsSticky : Prop :=
  (∀ (imm : Byte) (s t : State) (r : Response), exec (.decSym imm) s = .next t → t.responses = r :: s.responses →
    r.code = .unexpectedPositive ∨ r.code = .unexpectedNegative ∨ r.code = .unknownSymbol →
      (errorBits t.regs.dErr).setWidth 4 = r.code.number) ∧
  (∀ (xs : List Byte) (s : State), s.regs.dErr ≠ none →
    ∃ t : State, runProgram (xs.map .decSym) s = .next t ∧ t.regs = s.regs ∧
      t.transcript.map outcomeOf = xs.map fun _ => (.ignoredAfterError, [])) ∧
  (∀ s : State, ∃ t u : State, exec .decStart s = .next t ∧ exec .decEnd s = .next u ∧
    t.regs.dErr = none ∧ u.regs.dErr = none) ∧
  (∀ (s : State) (rest : List HostInput), s.inputs = .reset :: rest →
    ∃ t : State, step s = .next t ∧ t.regs.dErr = none) ∧
  (∀ (i : Instr) (s t : State), unitOf i = .cipher → exec i s = .next t → t.regs = s.regs)

/-- R83: the only ways out of a held error are DEC.START, DEC.END, which also reports it, and reset; anything else keeps
that same error. The Encoder has no errors, and the Cipher's leave no state. -/
def Obligations.OnlyThreeWaysOutOfAnError : Prop :=
  (∀ (s t : State) (v : Violation), s.regs.dErr = some v → step s = .next t →
    (t.regs.dErr = some v ∨ t.regs.dErr = none) ∧
    (t.regs.dErr = none ↔
      ∃ rest, s.inputs = .reset :: rest ∨ s.inputs = .command 0x2000#16 :: rest ∨
        s.inputs = .command 0x2200#16 :: rest)) ∧
  (∀ (s : State) (v : Violation), s.regs.dErr = some v →
    ∃ (t : State) (r : Response), exec .decEnd s = .next t ∧ t.responses = r :: s.responses ∧
      r.code = v.code) ∧
  (∀ (i : Instr) (s : State), unitOf i = .encoder →
    ∃ (t : State) (r : Response), exec i s = .next t ∧ t.responses = r :: s.responses ∧ r.code = .ok) ∧
  (∀ (i : Instr) (s t : State), unitOf i = .cipher → exec i s = .next t → t.regs = s.regs)

/-- R69: decoding an encoded message gives the message back, under either truncation policy. -/
def Obligations.DecodeInvertsEncode : Prop :=
  ∀ (cfg : Config) (bs : List Byte), decodeMessage cfg (encodeToWire bs) = .ok bs

/-- The converse of R69 (R70): what decodes is the encoding of what it decodes to, up to a trailing partial byte. -/
def Obligations.EncodeInvertsDecode : Prop :=
  ∀ (cfg : Config) (xs bs : List Byte), decodeMessage cfg xs = .ok bs →
    encodeToWire bs = xs.take (8 * bs.length) ∧ xs.length < 8 * bs.length + 8

/-- The rejections the source names (R70, R75): two marks of one side with no mark between them, a negative mark before
any positive one, and a byte that is no symbol, wherever they stand. -/
def Obligations.DecodeRejectsViolations : Prop :=
  (∀ (cfg : Config) (xs zs ys : List Byte), (∀ z ∈ zs, z = 0x01#8) →
    (∃ v, decodeMessage cfg (xs ++ 0x02#8 :: (zs ++ 0x02#8 :: ys)) = .error (.protocolViolation v)) ∧
    (∃ v, decodeMessage cfg (xs ++ 0x00#8 :: (zs ++ 0x00#8 :: ys)) = .error (.protocolViolation v))) ∧
  (∀ (cfg : Config) (zs zs' ys : List Byte), (∀ z ∈ zs, z = 0x01#8) → (∀ z ∈ zs', z = 0x01#8) →
    decodeMessage cfg (zs ++ 0x00#8 :: ys) = .error (.protocolViolation .unexpectedNegative) ∧
    decodeMessage cfg (zs ++ 0x02#8 :: (zs' ++ 0x02#8 :: ys)) =
      .error (.protocolViolation .unexpectedPositive)) ∧
  (∀ (cfg : Config) (xs ys : List Byte) (x : Byte), 3 ≤ x.toNat →
    ∃ v, decodeMessage cfg (xs ++ x :: ys) = .error (.protocolViolation v))

/-- The first wrong symbol decides: what follows a violation does not change the reason reported (R67, R82). -/
def Obligations.FirstViolationDecides : Prop :=
  ∀ (cfg : Config) (xs ys : List Byte) (v : Violation),
    decodeMessage cfg xs = .error (.protocolViolation v) →
      decodeMessage cfg (xs ++ ys) = .error (.protocolViolation v)

/-- R68: with REJECT_TRUNCATED false a trailing partial byte is dropped without a sign and whole bytes only come out; with
true such a message fails with Truncated. The symbols are checked alike. -/
def Obligations.TruncationPolicy : Prop :=
  ∀ (key : Byte) (xs : List Byte),
    (∀ bs : List Byte, decodeMessage ⟨key, false⟩ xs = .ok bs →
      bs.length = xs.length / 8 ∧
      decodeMessage ⟨key, true⟩ xs = if xs.length % 8 = 0 then .ok bs else .error .truncated) ∧
    (∀ e : ErrorKind, decodeMessage ⟨key, false⟩ xs = .error e →
      (∃ v, e = .protocolViolation v) ∧ decodeMessage ⟨key, true⟩ xs = .error e)

/-- R74: the result read off the responses of DECODE.MSG is that of `decode`, from any state. -/
def Obligations.DecodeMessageComposes : Prop :=
  ∀ (xs : List Byte) (s : State), ∃ t : State, runProgram (decodeProgram xs) s = .next t ∧
    decodeResult t.transcript = some (decodeMessage s.config xs)

/-- DEC.END leaves the decoder ready: a message sent without DEC.START to a decoder at the start of a message is decoded as
well, and leaves it there again with `E_POL` untouched (R73, R91). -/
def Obligations.DecodeWithoutDecStart : Prop :=
  ∀ (xs : List Byte) (s : State), atStartOfDecoding s.regs →
    ∃ t : State, runProgram (xs.map .decSym ++ [.decEnd]) s = .next t ∧
      decodeResult t.transcript = some (decodeMessage s.config xs) ∧
      t.regs = startOfDecoding s.regs

/-- A host that keeps the Decoder's duties, starting from a decoder at the start of a message, reads off the responses for a
message, up to its DEC.END, the result of `decode` of that message's symbols, however its messages and other commands
follow one another (R74, R91, R92). -/
def Obligations.DutifulHostDecodesEachMessage : Prop :=
  ∀ (p : List Tagged) (m : Nat) (s : State), atStartOfDecoding s.regs →
    decoderDuty [] none (p ++ [(m, .decEnd)]) = true →
    ∃ t : State, runProgram ((p ++ [(m, Instr.decEnd)]).map fun c : Tagged => c.2) s = .next t ∧
      decodeResult (decodeResponsesFor m (p ++ [(m, .decEnd)]) t.transcript) =
        some (decodeMessage s.config (symbolsSentFor m p))

/-! ### The whole system -/

/-- R2: a plaintext that a sender encrypts and encodes comes out of a receiver with the same key, whatever state either
block starts in. -/
def Obligations.PlaintextTravelsEndToEnd : Prop :=
  ∀ (sender receiver : State) (text : List Byte),
    sender.config.key = receiver.config.key → (∀ c ∈ text, c.toNat ≤ 127) →
    ∃ (bs : List Byte) (s₁ s₂ r₁ r₂ : State),
      runProgram (encryptProgram text) sender = .next s₁ ∧ encryptResult s₁.transcript = .ok bs ∧
      runProgram (encodeProgram bs) s₁ = .next s₂ ∧
      runProgram (decodeProgram (responseData s₂.transcript)) receiver = .next r₁ ∧
      decodeResult r₁.transcript = some (.ok bs) ∧
      runProgram (decryptProgram bs) r₁ = .next r₂ ∧
      decryptResult r₂.transcript = .ok (text.map BitVec.toNat)
end

