-- ==== Sys2Proof/Laws/Decode.lean ====
section
/-! SUPPORT. The two fields of a command word, and the decoder on a word written as `{op, imm}`. -/

namespace Sys2Proof.Laws

/-- The fields of `{op, imm}` are `op` and `imm`. -/
theorem fieldsOf_append (op imm : Byte) : fieldsOf (op ++ imm) = { op := op, imm := imm } := by
  rw [fieldsOf, show (op ++ imm : Word).extractLsb' 8 8 = op from BitVec.extractLsb'_append_eq_left,
    show (op ++ imm : Word).extractLsb' 0 8 = imm from BitVec.extractLsb'_append_eq_right]

/-- A word is made of its two fields. -/
theorem wordOf_fieldsOf (w : Word) : wordOf (fieldsOf w).op (fieldsOf w).imm = w :=
  (BitVec.extractLsb'_append_extractLsb'_eq_extractLsb' (x := w) (start₂ := 8) (len₁ := 8) rfl).trans
    (by simp)

theorem decode_append (op imm : Byte) : decode (op ++ imm) = decodeFields { op := op, imm := imm } := by
  rw [decode, fieldsOf_append]

end Sys2Proof.Laws
end

