-- ==== Sys2Proof/Laws/Flags.lean ====
section
/-! SUPPORT. The fields of the STATUS word, each read back (R22). -/

namespace Sys2Proof.Laws

open Sys2Proof.Machine

@[simp] theorem polarityOfBit_bit (p : Polarity) : polarityOfBit p.bit = p := by cases p <;> rfl

@[simp] theorem errorOfBits_errorBits (e : Option Violation) : errorOfBits (errorBits e) = some e := by
  rcases e with _ | _ | _ | _ <;> rfl

/-- Any field of a word of five parts is the part that stands there. -/
theorem parts_of_word (a : BitVec 8) (e c : BitVec 3) (d p : BitVec 1) :
    (a ++ e ++ c ++ d ++ p).extractLsb' 0 1 = p ∧ (a ++ e ++ c ++ d ++ p).extractLsb' 1 1 = d ∧
      (a ++ e ++ c ++ d ++ p).extractLsb' 2 3 = c ∧ (a ++ e ++ c ++ d ++ p).extractLsb' 5 3 = e ∧
      (a ++ e ++ c ++ d ++ p).extractLsb' 8 8 = a := by
  refine ⟨?_, ?_, ?_, ?_, ?_⟩ <;>
    (apply BitVec.eq_of_getLsbD_eq; intro i hi
     simp only [BitVec.getLsbD_extractLsb', BitVec.getLsbD_append, hi, decide_true, Bool.true_and]
     repeat' split
     all_goals first | omega | (congr 1; omega))

end Sys2Proof.Laws
end

