-- ==== Sys2Proof/Laws/State.lean ====
section
/-! SUPPORT. What each shared update of the state writes, field by field. -/

namespace Sys2Proof.Laws

open Sys2Proof.Machine

variable (s : State) (r : Registers) (c : ResponseCode) (d : List Byte) (n w : Nat) (ws : List Word)

@[simp] theorem complete_config : (complete s r c d).config = s.config := rfl
@[simp] theorem complete_regs : (complete s r c d).regs = r := rfl
@[simp] theorem complete_inputs : (complete s r c d).inputs = s.inputs := rfl
@[simp] theorem complete_responses :
    (complete s r c d).responses = { code := c, data := d, status := status r } :: s.responses := rfl

@[simp] theorem illegalCommand_config : (illegalCommand s).config = s.config := rfl
@[simp] theorem illegalCommand_regs : (illegalCommand s).regs = s.regs := rfl
@[simp] theorem illegalCommand_inputs : (illegalCommand s).inputs = s.inputs := rfl
@[simp] theorem illegalCommand_responses :
    (illegalCommand s).responses =
      { code := .illegalCommand, data := [], status := status s.regs } :: s.responses := rfl

@[simp] theorem applyReset_config : (applyReset s).config = s.config := rfl
@[simp] theorem applyReset_regs : (applyReset s).regs = Registers.reset := rfl
@[simp] theorem applyReset_inputs : (applyReset s).inputs = s.inputs := rfl
@[simp] theorem applyReset_responses : (applyReset s).responses = s.responses := rfl

@[simp] theorem decoderStart_ePol : (decoderStart r).ePol = r.ePol := rfl
@[simp] theorem decoderStart_dPol : (decoderStart r).dPol = .pos := rfl
@[simp] theorem decoderStart_dAcc : (decoderStart r).dAcc = 0x00#8 := rfl
@[simp] theorem decoderStart_dCnt : (decoderStart r).dCnt = 0#3 := rfl
@[simp] theorem decoderStart_dErr : (decoderStart r).dErr = none := rfl

@[simp] theorem present_config : (present ws s).config = s.config := rfl
@[simp] theorem present_regs : (present ws s).regs = s.regs := rfl
@[simp] theorem present_inputs :
    (present ws s).inputs = ws.map HostInput.command ++ s.inputs := rfl
@[simp] theorem present_responses : (present ws s).responses = [] := rfl

@[simp] theorem withFetchWord_config : (s.withFetchWord n w).config = s.config := rfl
@[simp] theorem withFetchWord_regs : (s.withFetchWord n w).regs = s.regs := rfl
@[simp] theorem withFetchWord_inputs :
    (s.withFetchWord n w).inputs = .command (tableWord n w) :: s.inputs := rfl
@[simp] theorem withFetchWord_responses : (s.withFetchWord n w).responses = s.responses := rfl

@[simp] theorem transcript_eq : s.transcript = s.responses.reverse := rfl

end Sys2Proof.Laws
end

