-- ==== Sys2Proof/Laws/Ops.lean ====
section
/-! SUPPORT. What each shared operation can do: one lemma for each way it ends. -/

namespace Sys2Proof.Laws

open Sys2Proof.Machine

/-! ### Taking the next input -/

@[simp] theorem takeInput_nil {s : State} (h : s.inputs = []) : takeInput s = none := by
  simp [takeInput, h]

@[simp] theorem takeInput_cons {s : State} {x : HostInput} {rest : List HostInput}
    (h : s.inputs = x :: rest) : takeInput s = some (x, { s with inputs := rest }) := by
  simp [takeInput, h]

/-! ### Bytes, symbols and polarities -/

@[simp] theorem byteBits_length (b : Byte) : (byteBits b).length = 8 := rfl

theorem byteBits_get {b : Byte} {i : Nat} (h : i < 8) : (byteBits b)[i]? = some (b.getLsbD i) := by
  rcases i with _ | _ | _ | _ | _ | _ | _ | _ | i <;> first | rfl | omega

/-- Bit 7 is set exactly in the bytes above 127. -/
theorem aboveAscii_iff (b : Byte) : aboveAscii b = true ↔ 127 < b.toNat := by
  have := b.isLt
  rw [aboveAscii, ← BitVec.msb_eq_getLsbD_last, BitVec.msb_eq_decide]
  simp
  omega

@[simp] theorem flip_flip (p : Polarity) : p.flip.flip = p := by cases p <;> rfl

@[simp] theorem symbolOfWire_wire (x : Symbol) : symbolOfWire x.wire = some x := by cases x <;> rfl

/-- The wire byte of a symbol determines it. -/
theorem wire_injective {x y : Symbol} (h : x.wire = y.wire) : x = y := by
  cases x <;> cases y <;> first | rfl | exact absurd h (by decide)

/-- The bytes that are symbols, by cases. -/
theorem symbolOfWire_cases (x : Byte) :
    (x = 0x01#8 ∧ symbolOfWire x = some .zero) ∨ (x = 0x02#8 ∧ symbolOfWire x = some .positiveMark) ∨
      (x = 0x00#8 ∧ symbolOfWire x = some .negativeMark) ∨ (3 ≤ x.toNat ∧ symbolOfWire x = none) := by
  by_cases h1 : x = 0x01#8
  · exact .inl ⟨h1, by simp [symbolOfWire, h1]⟩
  by_cases h2 : x = 0x02#8
  · exact .inr (.inl ⟨h2, by simp [symbolOfWire, h2]⟩)
  by_cases h0 : x = 0x00#8
  · exact .inr (.inr (.inl ⟨h0, by simp [symbolOfWire, h0]⟩))
  · refine .inr (.inr (.inr ⟨?_, by rw [symbolOfWire, if_neg h1, if_neg h2, if_neg h0]⟩))
    simp only [← BitVec.toNat_inj] at h1 h2 h0
    simp at h1 h2 h0
    omega

/-! ### The encoder's loop -/

/-- The symbols of two runs of bits, one after the other: the second starts where the first left the polarity. -/
theorem encodeBits_append (as bs : List Bool) (p : Polarity) :
    encodeBits (as ++ bs) p =
      ((encodeBits as p).1 ++ (encodeBits bs (encodeBits as p).2).1, (encodeBits bs (encodeBits as p).2).2) := by
  induction as generalizing p with
  | nil => rfl
  | cons a as ih => cases a <;> simp [encodeBits, ih]

@[simp] theorem encodeBits_length (bs : List Bool) (p : Polarity) : (encodeBits bs p).1.length = bs.length := by
  induction bs generalizing p with
  | nil => rfl
  | cons b bs ih => cases b <;> simp [encodeBits, ih]

/-- Each symbol of a run of bits stands for its bit. -/
theorem encodeBits_bits (bs : List Bool) (p : Polarity) : (encodeBits bs p).1.map Symbol.bit = bs := by
  induction bs generalizing p with
  | nil => rfl
  | cons b bs ih => cases b <;> cases p <;> simp [encodeBits, ih, Symbol.bit, Polarity.mark]

/-! ### The decoder's check of a symbol -/

theorem checkSymbol_zero (p : Polarity) : checkSymbol p 0x01#8 = .ok (false, p) := by cases p <;> rfl

/-- The mark of the expected side is a 1 bit and flips the side. -/
theorem checkSymbol_mark (p : Polarity) : checkSymbol p p.mark.wire = .ok (true, p.flip) := by
  cases p <;> rfl

theorem checkSymbol_unknown (p : Polarity) {x : Byte} (h : 3 ≤ x.toNat) :
    checkSymbol p x = .error .unknownSymbol := by
  rcases symbolOfWire_cases x with ⟨rfl, _⟩ | ⟨rfl, _⟩ | ⟨rfl, _⟩ | ⟨_, hx⟩
  · simp at h
  · simp at h
  · simp at h
  · cases p <;> simp [checkSymbol, hx]

end Sys2Proof.Laws
end

