-- ==== Sys2Proof/Laws/PerInstr.lean ====
section
/-! SUPPORT. What holds of every command as syntax, one lemma for each constructor. -/

namespace Sys2Proof.Laws.WordFields

/-- The word of a command has well-formed fields: a known opcode, and an operand its opcode allows (R41, R42). -/
def Statement (i : Instr) : Prop := (fieldsOf (encode i)).wellFormed = true

theorem ciphEnc (imm : Byte) : Statement (.ciphEnc imm) := by
  unfold Statement encode wordOf
  rw [fieldsOf_append]; rfl

theorem ciphDec (imm : Byte) : Statement (.ciphDec imm) := by
  unfold Statement encode wordOf
  rw [fieldsOf_append]; rfl

theorem encStart : Statement .encStart := rfl

theorem encByte (imm : Byte) : Statement (.encByte imm) := by
  unfold Statement encode wordOf
  rw [fieldsOf_append]; rfl

theorem decStart : Statement .decStart := rfl

theorem decSym (imm : Byte) : Statement (.decSym imm) := by
  unfold Statement encode wordOf
  rw [fieldsOf_append]; rfl

theorem decEnd : Statement .decEnd := rfl

end Sys2Proof.Laws.WordFields
end

