-- ==== Sys2Proof/Laws/Step.lean ====
section
/-! SUPPORT. What a command, a word, a step and a run can do: each as one function of the configuration and the registers
(R5), so that no later proof runs the machine step by step. -/

namespace Sys2Proof.Laws

open Sys2Proof.Machine

/-- The registers, the code and the data that a command leaves and gives. -/
abbrev Effect := Registers × ResponseCode × List Byte

/-- What DEC.SYM does where no error is held. -/
def decSymEffect (imm : Byte) (r : Registers) : Effect :=
  match checkSymbol r.dPol imm with
  | .error v => ({ r with dErr := some v }, v.code, [])
  | .ok (bit, p) =>
    if r.dCnt = 7#3 then
      ({ r with dPol := p, dAcc := 0x00#8, dCnt := 0#3 }, .ok, [r.dAcc ||| (bitByte bit <<< r.dCnt.toNat)])
    else
      ({ r with dPol := p, dAcc := r.dAcc ||| (bitByte bit <<< r.dCnt.toNat), dCnt := r.dCnt + 1#3 }, .ok, [])

/-- What a command does, as a function of the configuration and the registers alone (R5, R36). -/
def effect (cfg : Config) (r : Registers) : Instr → Effect
  | .ciphEnc imm => if aboveAscii imm then (r, .invalidInput, []) else (r, .ok, [imm ^^^ cfg.key])
  | .ciphDec imm =>
    if aboveAscii (imm ^^^ cfg.key) then (r, .decodingError, []) else (r, .ok, [imm ^^^ cfg.key])
  | .encStart => ({ r with ePol := .pos }, .ok, [])
  | .encByte imm =>
    ({ r with ePol := (encodeBits (byteBits imm) r.ePol).2 }, .ok,
      (encodeBits (byteBits imm) r.ePol).1.map Symbol.wire)
  | .decStart => (decoderStart r, .ok, [])
  | .decSym imm => if r.dErr = none then decSymEffect imm r else (r, .ignoredAfterError, [])
  | .decEnd => (decoderStart r, endCode cfg r, [])

/-- What a command word does: an illegal one changes nothing (R42, R43). -/
def wordEffect (cfg : Config) (r : Registers) (w : Word) : Effect :=
  match decode w with
  | .ok i => effect cfg r i
  | .error _ => (r, .illegalCommand, [])

/-- The state after an effect. -/
def after (s : State) (e : Effect) : State := complete s e.1 e.2.1 e.2.2

/-- Every command answers a next state, and this is it. -/
theorem exec_eq (i : Instr) (s : State) : exec i s = .next (after s (effect s.config s.regs i)) := by
  cases i with
  | ciphEnc imm => simp only [exec, execCiphEnc, effect]; split <;> rfl
  | ciphDec imm => simp only [exec, execCiphDec, effect]; split <;> rfl
  | encStart => rfl
  | encByte imm => rfl
  | decStart => rfl
  | decEnd => rfl
  | decSym imm =>
    simp only [exec, execDecSym, effect]
    cases he : s.regs.dErr with
    | some v => rfl
    | none =>
      simp only [if_true, decSymEffect]
      cases checkSymbol s.regs.dPol imm with
      | error v => rfl
      | ok a => simp only [placeBit]; split <;> rfl

theorem issue_eq (w : Word) (s : State) :
    issue w s = .next (after s (wordEffect s.config s.regs w)) := by
  unfold issue wordEffect
  cases decode w with
  | ok i => exact exec_eq i s
  | error e => rfl

theorem step_idle {s : State} (h : s.inputs = []) : step s = .next s := by simp [step, h]

theorem step_reset {s : State} {rest : List HostInput} (h : s.inputs = .reset :: rest) :
    step s = .next (applyReset { s with inputs := rest }) := by
  rw [step, takeInput_cons h]; rfl

theorem step_command {s : State} {w : Word} {rest : List HostInput} (h : s.inputs = .command w :: rest) :
    step s = .next (after { s with inputs := rest } (wordEffect s.config s.regs w)) := by
  rw [step, takeInput_cons h]
  exact issue_eq w _

/-- All that a step can do. -/
theorem step_cases {s t : State} (h : step s = .next t) :
    (s.inputs = [] ∧ t = s) ∨
      (∃ rest, s.inputs = .reset :: rest ∧ t = applyReset { s with inputs := rest }) ∨
      ∃ w rest, s.inputs = .command w :: rest ∧
        t = after { s with inputs := rest } (wordEffect s.config s.regs w) := by
  rcases hs : s.inputs with _ | ⟨_ | _, rest⟩
  · rw [step_idle hs] at h; cases h; exact .inl ⟨rfl, rfl⟩
  · rw [step_command hs] at h; cases h; exact .inr (.inr ⟨_, _, rfl, rfl⟩)
  · rw [step_reset hs] at h; cases h; exact .inr (.inl ⟨_, rfl, rfl⟩)

/-- The registers after a list of words, and the responses to them in order. -/
def runEffect (cfg : Config) : List Word → Registers → Registers × List Response
  | [], r => (r, [])
  | w :: ws, r =>
    let e := wordEffect cfg r w
    let rest := runEffect cfg ws e.1
    (rest.1, { code := e.2.1, data := e.2.2, status := status e.1 } :: rest.2)

/-- A run goes on from the next state of its first step. -/
theorem run_next {M : Host.Core} {n : Nat} {s t : M.State} (h : M.step s = .next t) :
    M.run (n + 1) s = M.run n t := by
  rw [Host.Core.run, h]

/-- A run over words that stand first among the inputs: one response for each, and nothing else changes. -/
theorem run_eq (ws : List Word) (s : State) (rest : List HostInput)
    (h : s.inputs = ws.map HostInput.command ++ rest) :
    Host.Core.run Sys2Proof.core ws.length s =
      .next
        { config := s.config
          regs := (runEffect s.config ws s.regs).1
          inputs := rest
          responses := (runEffect s.config ws s.regs).2.reverse ++ s.responses } := by
  induction ws generalizing s with
  | nil => cases s; simp at h; subst h; rfl
  | cons w ws ih =>
    have hstep := step_command (s := s) (w := w) (rest := ws.map HostInput.command ++ rest) (by simpa using h)
    rw [List.length_cons, run_next (M := Sys2Proof.core) hstep]
    refine (ih _ rfl).trans ?_
    simp only [after, runEffect, complete, List.reverse_cons, List.append_assoc, List.singleton_append]

/-- A run of words answers a next state, and this is it. -/
theorem runWords_eq (ws : List Word) (s : State) :
    runWords ws s =
      .next
        { config := s.config
          regs := (runEffect s.config ws s.regs).1
          inputs := s.inputs
          responses := (runEffect s.config ws s.regs).2.reverse } := by
  refine (run_eq ws (present ws s) s.inputs rfl).trans ?_
  simp only [present_config, present_regs, present_responses, List.append_nil]
  rfl

@[simp] theorem runEffect_length (cfg : Config) (ws : List Word) (r : Registers) :
    (runEffect cfg ws r).2.length = ws.length := by
  induction ws generalizing r with
  | nil => rfl
  | cons w ws ih => simp [runEffect, ih]

/-- A run of two lists of words is the second run from where the first ends. -/
theorem runEffect_append (cfg : Config) (ws us : List Word) (r : Registers) :
    runEffect cfg (ws ++ us) r =
      ((runEffect cfg us (runEffect cfg ws r).1).1,
        (runEffect cfg ws r).2 ++ (runEffect cfg us (runEffect cfg ws r).1).2) := by
  induction ws generalizing r with
  | nil => rfl
  | cons w ws ih => simp [runEffect, ih]

end Sys2Proof.Laws
end

