-- ==== Sys2Proof/Tests/Slice0.lean ====
section
/-! SUPPORT. Tests. Expected results are taken from spec/95_test_vectors.md or worked out from the rules; the second half
shows, for each statement with hypotheses, a state and operands that meet them. -/

namespace Sys2Proof.Tests

open Sys2Proof.Machine Sys2Proof.Safety Sys2Proof.Claims

/-- A block with a key, a truncation policy, registers and inputs, and no response given. -/
def blk (key : Byte) (rt : Bool) (regs : Registers) (inputs : List HostInput) : State :=
  { config := ⟨key, rt⟩, regs := regs, inputs := inputs, responses := [] }

/-- The code, data and STATUS of the newest response of a next state. -/
def shown (o : Host.Outcome State Fault Refusal) : Option (ResponseCode × List Byte × Word) :=
  match o with
  | .next t => t.responses.head?.map fun r => (r.code, r.data, r.status)
  | .fault _ => none
  | .refused _ => none

/-- The registers of a next state. -/
def regsOf (o : Host.Outcome State Fault Refusal) : Option Registers :=
  match o with
  | .next t => some t.regs
  | .fault _ => none
  | .refused _ => none

/-! ### Well-formedness refuses -/

theorem test_unknown_opcode_refused : (Fields.mk 0x03#8 0x00#8).opcodeKnown = false := by decide
theorem test_reserved_operand_refused : (Fields.mk 0x10#8 0x01#8).operandLegal = false := by decide
theorem test_ill_formed_fields :
    [Fields.mk 0x00#8 0x00#8, ⟨0x03#8, 0x00#8⟩, ⟨0x20#8, 0xFF#8⟩, ⟨0x22#8, 0x05#8⟩].any Fields.wellFormed =
      false := by decide

/-! ### Decoding, from the encodings of the opcode table -/

theorem test_decode_ciphEnc : decode 0b0000000101000001#16 = .ok (.ciphEnc 0x41#8) := by rfl
theorem test_decode_ciphDec : decode 0b0000001010111111#16 = .ok (.ciphDec 0xBF#8) := by rfl
theorem test_decode_encStart : decode 0b0001000000000000#16 = .ok .encStart := by rfl
theorem test_decode_encByte : decode 0b0001000110111111#16 = .ok (.encByte 0xBF#8) := by rfl
theorem test_decode_decStart : decode 0b0010000000000000#16 = .ok .decStart := by rfl
theorem test_decode_decSym : decode 0b0010000100000010#16 = .ok (.decSym 0x02#8) := by rfl
theorem test_decode_decEnd : decode 0b0010001000000000#16 = .ok .decEnd := by rfl
/-- Section 2.5. -/
theorem test_illegal_words :
    [0x0000#16, 0x0300#16, 0x0FFF#16, 0x1001#16, 0x1200#16, 0x20FF#16, 0x2205#16, 0x2300#16, 0xFFFF#16].any
      legalWord = false := by decide
theorem test_table_word : decodeTableWord 16 0x2102 = some (.decSym 0x02#8) := by decide
theorem test_table_word_short : decodeTableWord 8 0xFF02 = none := by decide

/-! ### One step of each command -/

/-- Section 2.1, KEY FE, words 0141 and 0180. -/
theorem test_ciphEnc :
    shown (exec (.ciphEnc 0x41#8) (blk 0xFE#8 false Registers.reset [])) = some (.ok, [0xBF#8], 0x0000#16) := by
  decide
theorem test_ciphEnc_rejects :
    shown (exec (.ciphEnc 0x80#8) (blk 0x80#8 false Registers.reset [])) =
      some (.invalidInput, [], 0x0000#16) := by decide

/-- Section 2.1, KEY FE, words 0281 and 0241. -/
theorem test_ciphDec :
    shown (exec (.ciphDec 0x81#8) (blk 0xFE#8 false Registers.reset [])) = some (.ok, [0x7F#8], 0x0000#16) := by
  decide
theorem test_ciphDec_rejects :
    shown (exec (.ciphDec 0x41#8) (blk 0xFE#8 false Registers.reset [])) =
      some (.decodingError, [], 0x0000#16) := by decide

/-- Section 2.2, the row of 1000 from NEG. -/
theorem test_encStart :
    shown (exec .encStart (blk 0#8 false ⟨.neg, .pos, 0x00#8, 0#3, none⟩ [])) =
      some (.ok, [], 0x0000#16) := by decide

/-- Section 2.2, the row 11BF from POS; and the wire bytes of the row 117F from NEG. That row's STATUS 0001 disagrees with
R64 and R65, by which seven 1 bits take NEG to POS: the STATUS 0000 here follows the rules (log entry 17). -/
theorem test_encByte :
    shown (exec (.encByte 0xBF#8) (blk 0#8 false Registers.reset [])) =
      some (.ok, [0x02#8, 0x00#8, 0x02#8, 0x00#8, 0x02#8, 0x00#8, 0x01#8, 0x02#8], 0x0001#16) := by decide
theorem test_encByte_from_neg :
    shown (exec (.encByte 0x7F#8) (blk 0#8 false ⟨.neg, .pos, 0x00#8, 0#3, none⟩ [])) =
      some (.ok, [0x00#8, 0x02#8, 0x00#8, 0x02#8, 0x00#8, 0x02#8, 0x00#8, 0x01#8], 0x0000#16) := by decide

/-- The example of R71: from STATUS 0x0166. -/
theorem test_decStart :
    shown (exec .decStart (blk 0#8 false ⟨.pos, .neg, 0x01#8, 1#3, some .unexpectedPositive⟩ [])) =
      some (.ok, [], 0x0000#16) := by decide

/-- Program P1: the symbol that completes 0xBF; and section 2.3, word 2102 from NEG. -/
theorem test_decSym_completes_byte :
    shown (exec (.decSym 0x02#8) (blk 0#8 false ⟨.pos, .pos, 0x3F#8, 7#3, none⟩ [])) =
      some (.ok, [0xBF#8], 0x0002#16) := by decide
theorem test_decSym_rejects :
    shown (exec (.decSym 0x02#8) (blk 0#8 false ⟨.pos, .neg, 0x00#8, 0#3, none⟩ [])) =
      some (.unexpectedPositive, [], 0x0062#16) := by decide

/-- Program P4: both policies at the end of a truncated message. -/
theorem test_decEnd_truncated :
    shown (exec .decEnd (blk 0#8 true ⟨.pos, .pos, 0x01#8, 4#3, none⟩ [])) =
      some (.truncated, [], 0x0000#16) := by decide
theorem test_decEnd_silent :
    shown (exec .decEnd (blk 0#8 false ⟨.pos, .pos, 0x01#8, 4#3, none⟩ [])) =
      some (.ok, [], 0x0000#16) := by decide

/-! ### STATUS, the step and the assembler -/

/-- Section 2.6, the last row. -/
theorem test_status : status ⟨.neg, .neg, 0xFF#8, 7#3, some .unknownSymbol⟩ = 0xFFBF#16 := by decide

/-- Program P5: an illegal word in the middle of a message. -/
theorem test_step_illegal :
    shown (step (blk 0#8 false ⟨.pos, .neg, 0x01#8, 1#3, none⟩ [.command 0x2205#16])) =
      some (.illegalCommand, [], 0x0106#16) := by decide
theorem test_step_runs_placed_word :
    shown (step (State.reset.withFetchWord 16 0x2102)) = some (.ok, [], 0x0106#16) := by decide
theorem test_step_reset :
    regsOf (step (blk 0#8 false ⟨.neg, .neg, 0xFF#8, 7#3, some .unknownSymbol⟩ [.reset])) =
      some Registers.reset := by decide

/-- R90: configuring a block sets its key, which CIPH.ENC 0x00 then gives (R54). -/
theorem test_configure :
    shown (exec (.ciphEnc 0x00#8) (configure ⟨0xFE#8, false⟩ State.reset)) =
      some (.ok, [0xFE#8], 0x0000#16) := by decide

/-- R48: a quoted character, a decimal number and a symbol's name; a name where none is allowed. -/
theorem test_assemble :
    assemble (letters .ciphEnc ++ [' ', quoteChar, 'A', quoteChar, ' ', ';', 'x', '\n'] ++
      letters .encByte ++ [' ', '1', '9', '1', '\n'] ++ letters .decSym ++ [' ', 'P']) =
      some [0x0141#16, 0x11BF#16, 0x2102#16] := by decide
/-- No blank before a quoted operand: the model's choice (log entry 9). -/
theorem test_assemble_no_blank :
    assembleLine (letters .ciphEnc ++ [quoteChar, 'A', quoteChar]) = some [0x0141#16] := by decide
/-- A semicolon outside quotes starts a comment (R48); inside quotes it is the character, the model's choice (log entry 9). -/
theorem test_assemble_quoted_semicolon :
    assembleLine (letters .ciphEnc ++ [' ', quoteChar, ';', quoteChar, ';', 'x']) = some [0x013B#16] := by decide
theorem test_assemble_refuses : assembleLine (letters .encByte ++ [' ', 'P']) = none := by decide
theorem test_assemble_range : assembleLine (letters .encByte ++ [' ', '2', '5', '6']) = none := by decide

/-! ### Whole messages: section 1 and section 2.4 -/

/-- W7, with the correction of 90_conflicts.md C1. -/
theorem test_encode_W7 :
    encodeToWire [0xBF#8] = [0x02#8, 0x00#8, 0x02#8, 0x00#8, 0x02#8, 0x00#8, 0x01#8, 0x02#8] := by decide
/-- W7b. -/
theorem test_decode_W7b :
    decodeMessage ⟨0#8, false⟩ [0x02#8, 0x00#8, 0x02#8, 0x00#8, 0x02#8, 0x01#8, 0x00#8, 0x02#8] =
      .ok [0xDF#8] := by decide
/-- A violation in the discarded tail (R75). -/
theorem test_decode_tail :
    decodeMessage ⟨0#8, false⟩
      [0x02#8, 0x01#8, 0x01#8, 0x01#8, 0x01#8, 0x01#8, 0x01#8, 0x01#8, 0x01#8, 0x02#8] =
      .error (.protocolViolation .unexpectedPositive) := by decide
/-- Section 2.1, message level. -/
theorem test_encrypt_AB : encryptMessage ⟨0xFE#8, false⟩ [0x41, 0x42] = .ok [0xBF#8, 0xBC#8] := by decide
/-- W10: KEY 7E fails, KEY FF gives 0x40. -/
theorem test_decrypt_other_key :
    decryptMessage ⟨0x7E#8, false⟩ [0xBF#8] = .error .decoding ∧
      decryptMessage ⟨0xFF#8, false⟩ [0xBF#8] = .ok [0x40] := by decide

/-! ### Witnesses: the hypotheses of each statement can be met -/

/-- A decoder in the middle of a byte, with `D_POL = NEG` and no error held. -/
def midByte : Registers := ⟨.pos, .neg, 0x01#8, 1#3, none⟩

/-- A decoder that holds an error. -/
def failed : Registers := ⟨.neg, .neg, 0x01#8, 1#3, some .unexpectedPositive⟩

theorem witness_EncodeOfDecode : decode 0x22FF#16 ≠ .ok .decEnd ∧ decode 0x2200#16 = .ok .decEnd := by decide

theorem witness_ReservedOperandIsIllegal :
    (0x22#8 = 0x10#8 ∨ 0x22#8 = 0x20#8 ∨ 0x22#8 = 0x22#8) ∧ (0xFF#8 : Byte) ≠ 0x00#8 ∧
      (blk 0#8 false midByte [.command (0x22#8 ++ 0xFF#8)]).inputs = .command (0x22#8 ++ 0xFF#8) :: [] := by
  decide

theorem witness_UnknownOpcodeIsIllegal :
    (0x03 ≤ (0x0F#8).toNat ∧ (0x0F#8).toNat ≤ 0x0F) ∧ (0x12 ≤ (0x12#8).toNat ∧ (0x12#8).toNat ≤ 0x1F) ∧
      0x23 ≤ (0x23#8).toNat ∧ (0x00#8).toNat = 0x00 ∧
      (blk 0#8 false midByte [.command (0x23#8 ++ 0x00#8)]).inputs = .command (0x23#8 ++ 0x00#8) :: [] := by
  decide

/-- Used by IllegalWordsLeaveTheRunAlone and OneCodeByPriority. -/
theorem witness_illegal_word :
    decode 0x2205#16 = .error (.reservedOperand 0x22#8 0x05#8) ∧
      (blk 0#8 false midByte [.command 0x2205#16]).inputs = .command 0x2205#16 :: [] := by decide

/-- Used by StepRunsDecodedInstruction, StatusLayout and ResponseHasTableLength. -/
theorem witness_StepRunsDecodedInstruction :
    (blk 0#8 false midByte [.command 0x2100#16]).inputs = .command 0x2100#16 :: [] ∧
      decode 0x2100#16 = .ok (.decSym 0x00#8) := by decide

theorem witness_StepWaitsForInput : State.reset.inputs = [] := rfl

/-- Used by StepTakesOneInput, ConfigurationNeverChanges and AccumulatorStaysBelowCount: a step that places a bit. -/
theorem witness_step_next :
    AccBelowCount (blk 0#8 false midByte [.command 0x2100#16]).regs ∧
      ∃ t, step (blk 0#8 false midByte [.command 0x2100#16]) = .next t ∧ t.regs.dAcc = 0x03#8 :=
  ⟨by decide, _, rfl, by decide⟩

/-- The boundary of AccumulatorStaysBelowCount: the step that completes a byte. -/
theorem witness_step_completes_byte :
    AccBelowCount (blk 0#8 false ⟨.pos, .pos, 0x7F#8, 7#3, none⟩ [.command 0x2102#16]).regs ∧
      ∃ t, step (blk 0#8 false ⟨.pos, .pos, 0x7F#8, 7#3, none⟩ [.command 0x2102#16]) = .next t ∧
        t.regs.dCnt = 0#3 :=
  ⟨by decide, _, rfl, by decide⟩

/-- Used by ResetLeavesResetValues, ResetEqualsBothStarts and ErrorIsSticky. -/
theorem witness_reset_input : (blk 0#8 true failed [.reset, .command 0x2000#16]).inputs =
    .reset :: [.command 0x2000#16] := rfl
theorem witness_ResetEqualsBothStarts : (blk 0#8 true Registers.reset []).regs = State.reset.regs := rfl

theorem witness_OneCodeByPriority : failed.dErr ≠ none ∧ failed.dErr = some .unexpectedPositive := by decide

/-- For UnitsAreDisjoint, first clause. -/
theorem witness_UnitsAreDisjoint_writes :
    ∃ t, exec (.encByte 0x01#8) (blk 0#8 false midByte []) = .next t ∧
      BlockUnit.decoder ≠ unitOf (.encByte 0x01#8) := ⟨_, rfl, by decide⟩
/-- For UnitsAreDisjoint, second clause: two blocks that differ in all that DEC.SYM does not read. -/
theorem witness_UnitsAreDisjoint_reads :
    AgreeOn (unitOf (.decSym 0x00#8)) midByte { midByte with ePol := .neg } ∧
      unitOf (.decSym 0x00#8) ≠ .cipher ∧ Instr.decSym 0x00#8 ≠ .decEnd :=
  ⟨⟨rfl, rfl, rfl, rfl⟩, by decide, by decide⟩
theorem witness_UnitsAreDisjoint_cipher :
    unitOf (.ciphDec 0x41#8) = .cipher ∧
      (blk 0x41#8 false midByte []).config.key = (blk 0x41#8 true failed []).config.key := by decide
theorem witness_UnitsAreDisjoint_decEnd :
    AgreeOn (unitOf .decEnd) midByte { midByte with ePol := .neg } ∧
      (blk 0x41#8 true midByte []).config.rejectTruncated =
        (blk 0x42#8 true midByte []).config.rejectTruncated := ⟨⟨rfl, rfl, rfl, rfl⟩, rfl⟩

theorem witness_CiphEncEncrypts : (0x7F#8 : Byte).toNat ≤ 127 ∧ 127 < (0x80#8 : Byte).toNat := by decide
theorem witness_CiphDecDecrypts :
    ((0x81#8 : Byte) ^^^ (blk 0xFE#8 false midByte []).config.key).toNat ≤ 127 ∧
      127 < ((0x7E#8 : Byte) ^^^ (blk 0xFE#8 false midByte []).config.key).toNat := by decide

theorem witness_CharacterPort :
    presents 127 0x7F#8 = true ∧ presents 128 0x80#8 = true ∧ presents 0x141 0xFF#8 = true ∧
      presents 0x141 0x41#8 = false ∧ 255 < 0x141 ∧ 0x141 % 256 ≤ 127 := by decide
/-- The bounds 255 and 256 of CharacterPort; that 0x80 presents 255 is log entry 11's reading. -/
theorem witness_CharacterPort_bounds :
    presents 255 (BitVec.ofNat 8 255) = true ∧ presents 255 0x80#8 = true ∧ presents 255 0x7F#8 = false ∧
      presents 256 0x80#8 = true ∧ presents 256 (BitVec.ofNat 8 256) = false ∧
      255 < 256 ∧ 256 % 256 ≤ 127 := by decide

theorem witness_CipherRoundTrip :
    encryptMessage ⟨0xFE#8, false⟩ [0x41, 0x7F] = .ok [0xBF#8, 0x81#8] ∧
      decryptMessage ⟨0xFE#8, false⟩ [0xBF#8, 0x81#8] = .ok [0x41, 0x7F] := by decide

/-- For KeyMismatchGarbles: keys that differ in bit 7, keys that do not, and the same key. -/
theorem witness_KeyMismatchGarbles :
    (∀ c ∈ [0x41, 127], c ≤ 127) ∧ [0x41, 127] ≠ [] ∧ ((0xFE#8 : Byte) ^^^ 0x7E#8).getLsbD 7 = true ∧
      ((0xFE#8 : Byte) ^^^ 0xFF#8).getLsbD 7 = false ∧
      decryptMessage ⟨0xFE#8, false⟩ [0xBF#8, 0x81#8] = .ok [0x41, 127] := by decide

theorem witness_CipherMessagesCompose :
    List.Forall₂ (fun c imm => presents c imm = true) [0x41, 0xE9, 0x141] [0x41#8, 0xE9#8, 0x80#8] :=
  .cons (by decide) (.cons (by decide) (.cons (by decide) .nil))

theorem witness_EncStartSetsPositive :
    (0x01#8 : Byte) ≠ 0x00#8 ∧
      (blk 0#8 false failed [.command (0x10#8 ++ 0x01#8)]).inputs = .command (0x10#8 ++ 0x01#8) :: [] := by
  decide

theorem witness_EncByteWireBytes : 0 < 8 ∧ 7 < 8 := by decide
theorem witness_EncodeLengthAndOrder : 7 < 8 ∧ ([0xBF#8, 0x01#8] : List Byte)[1]? = some 0x01#8 := by decide
theorem witness_EncodedMarksAlternate : (messageBits [0xBF#8])[6]? = some false ∧
    (messageBits [0xBF#8])[7]? = some true := by decide

/-- For EncodeMessageComposes: one byte, with a decoder's symbol and an illegal word in between. -/
theorem witness_EncodeMessageComposes :
    [0x2101#16, 0x1000#16, 0xFFFF#16, 0x11BF#16].filter (wordOfUnit .encoder) =
      (encodeProgram [0xBF#8]).map encode := by decide

/-- For DutifulHostEncodesEachMessage: two messages, the second after ENC.START, with a symbol in between. -/
theorem witness_DutifulHostEncodesEachMessage :
    (blk 0#8 false Registers.reset []).regs.ePol = .pos ∧
      encoderDuty [] none
        [(0, .encByte 0x01#8), (7, .decSym 0x01#8), (0, .encByte 0x03#8), (1, .encStart),
          (1, .encByte 0x01#8)] = true := by decide

theorem witness_OmittedEncStart :
    oddOnes (messageBits [0x01#8]) = true ∧ true ∈ messageBits [0x80#8] ∧
      oddOnes (messageBits [0x03#8]) = false ∧ true ∉ messageBits [0x00#8] := by decide

theorem witness_WireBytesOfSymbols :
    shown (exec (.decSym 0x01#8) (blk 0#8 false midByte [])) = some (.ok, [], 0x010A#16) := by decide
theorem witness_UnknownWireBytes : 3 ≤ (0x03#8 : Byte).toNat ∧ 3 ≤ (0xFF#8 : Byte).toNat ∧
    (blk 0#8 false midByte []).regs.dErr = none := by decide

theorem witness_DecStartClearsDecoder :
    (0xFF#8 : Byte) ≠ 0x00#8 ∧
      (blk 0#8 false failed [.command (0x20#8 ++ 0xFF#8)]).inputs = .command (0x20#8 ++ 0xFF#8) :: [] := by
  decide

/-- For DecSymDecodes: a held error; an accepted symbol with a bit to spare and one that completes the byte; a misplaced
mark of each side; an unknown byte. -/
theorem witness_DecSymDecodes :
    failed.dErr ≠ none ∧
      (((0x00#8, .neg, .pos, 1#8) : Byte × Polarity × Polarity × Byte) ∈ acceptedSymbols ∧
        midByte.dErr = none ∧ midByte.dPol = .neg ∧ midByte.dCnt ≠ 7#3) ∧
      (((0x01#8, .neg, .neg, 0#8) : Byte × Polarity × Polarity × Byte) ∈ acceptedSymbols ∧
        ({ midByte with dCnt := 7#3 } : Registers).dCnt = 7#3) ∧
      ((0x02#8, .neg, .unexpectedPositive) : Byte × Polarity × Violation) ∈ misplacedMarks ∧
      (((0x00#8, .pos, .unexpectedNegative) : Byte × Polarity × Violation) ∈ misplacedMarks ∧
        Registers.reset.dErr = none ∧ Registers.reset.dPol = .pos) ∧
      0x03 ≤ (0x03#8 : Byte).toNat := by decide

theorem witness_DecEndReportsOutcome :
    failed.dErr = some .unexpectedPositive ∧
      (midByte.dErr = none ∧ midByte.dCnt ≠ 0#3 ∧ (blk 0#8 true midByte []).config.rejectTruncated = true) ∧
      (Registers.reset.dErr = none ∧ Registers.reset.dCnt = 0#3) ∧
      (midByte.dErr = none ∧ (blk 0#8 false midByte []).config.rejectTruncated = false) ∧
      (0x05#8 : Byte) ≠ 0x00#8 := by decide

/-- For ErrorIsSticky: a symbol that fails, an error held, and a cipher error. -/
theorem witness_ErrorIsSticky :
    shown (exec (.decSym 0x02#8) (blk 0#8 false midByte [])) = some (.unexpectedPositive, [], 0x0166#16) ∧
      failed.dErr ≠ none ∧ unitOf (.ciphEnc 0x80#8) = .cipher := by decide

/-- For OnlyThreeWaysOutOfAnError: a step that keeps the error and steps that clear it. -/
theorem witness_OnlyThreeWaysOutOfAnError :
    failed.dErr = some .unexpectedPositive ∧ unitOf .encStart = .encoder ∧
      (∃ t, step (blk 0#8 false failed [.command 0x2101#16]) = .next t ∧ t.regs.dErr = failed.dErr) ∧
      (∃ t, step (blk 0#8 false failed [.command 0x2200#16]) = .next t ∧ t.regs.dErr = none) ∧
      ∃ t, step (blk 0#8 false failed [.reset]) = .next t ∧ t.regs.dErr = none :=
  ⟨rfl, rfl, ⟨_, rfl, rfl⟩, ⟨_, rfl, rfl⟩, ⟨_, rfl, rfl⟩⟩

theorem witness_EncodeInvertsDecode :
    decodeMessage ⟨0#8, false⟩
      [0x02#8, 0x00#8, 0x02#8, 0x00#8, 0x02#8, 0x01#8, 0x00#8, 0x02#8, 0x01#8] = .ok [0xDF#8] := by decide

theorem witness_DecodeRejectsViolations :
    (∀ z ∈ [0x01#8, 0x01#8], z = 0x01#8) ∧ 3 ≤ (0x03#8 : Byte).toNat := by decide

theorem witness_FirstViolationDecides :
    decodeMessage ⟨0#8, true⟩ [0x02#8, 0x02#8] = .error (.protocolViolation .unexpectedPositive) := by decide

theorem witness_TruncationPolicy :
    decodeMessage ⟨0#8, false⟩ [0x01#8, 0x01#8] = .ok [] ∧
      decodeMessage ⟨0#8, false⟩ [0x00#8] = .error (.protocolViolation .unexpectedNegative) := by decide

theorem witness_DecodeWithoutDecStart : atStartOfDecoding ⟨.neg, .pos, 0x00#8, 0#3, none⟩ := by decide

/-- For DutifulHostDecodesEachMessage: a message ended by DEC.END, then the message 1 without DEC.START. -/
theorem witness_DutifulHostDecodesEachMessage :
    atStartOfDecoding Registers.reset ∧
      decoderDuty [] none
        ([(0, .decSym 0x02#8), (3, .encByte 0x01#8), (0, .decEnd), (1, .decSym 0x01#8)] ++
          [(1, .decEnd)]) = true := by decide

theorem witness_PlaintextTravelsEndToEnd :
    (blk 0xFE#8 false failed []).config.key = (blk 0xFE#8 true midByte []).config.key ∧
      ∀ c ∈ ([0x48#8, 0x69#8] : List Byte), c.toNat ≤ 127 := by decide

end Sys2Proof.Tests
end

namespace Sys2Proof.Proofs

open Sys2Proof.Machine Sys2Proof.Laws

/-! ### The decoder on the word of a command -/

/-- The decoder undoes the encoder for every command (R39, R41). -/
@[simp] theorem decode_encode (i : Instr) : decode (encode i) = .ok i := by
  cases i with
  | encStart | decStart | decEnd => rfl
  | ciphEnc imm | ciphDec imm | encByte imm | decSym imm => exact decode_append _ imm

/-- The word of a command does what the command does. -/
@[simp] theorem wordEffect_encode (cfg : Config) (r : Registers) (i : Instr) :
    wordEffect cfg r (encode i) = effect cfg r i := by
  rw [wordEffect, decode_encode]

/-! ### A run of a program -/

/-- The response that an effect gives (R23). -/
def respond (e : Effect) : Response := { code := e.2.1, data := e.2.2, status := status e.1 }

@[simp] theorem respond_code (e : Effect) : (respond e).code = e.2.1 := rfl
@[simp] theorem respond_data (e : Effect) : (respond e).data = e.2.2 := rfl

/-- The registers after a program, and the responses to its commands in order: `runEffect` on commands. -/
def programEffect (cfg : Config) : List Instr → Registers → Registers × List Response
  | [], r => (r, [])
  | i :: p, r =>
    ((programEffect cfg p (effect cfg r i).1).1,
      respond (effect cfg r i) :: (programEffect cfg p (effect cfg r i).1).2)

theorem runEffect_map_encode (cfg : Config) (p : List Instr) (r : Registers) :
    runEffect cfg (p.map encode) r = programEffect cfg p r := by
  induction p generalizing r with
  | nil => rfl
  | cons i p ih => simp [runEffect, programEffect, ih, respond]

/-- A program of two parts is the second part from where the first ends. -/
theorem programEffect_append (cfg : Config) (p q : List Instr) (r : Registers) :
    programEffect cfg (p ++ q) r =
      ((programEffect cfg q (programEffect cfg p r).1).1,
        (programEffect cfg p r).2 ++ (programEffect cfg q (programEffect cfg p r).1).2) := by
  induction p generalizing r with
  | nil => rfl
  | cons i p ih => simp [programEffect, ih]

/-- Commands that each keep the registers respond independently of one another. -/
theorem programEffect_of_regs_kept {cfg : Config} {p : List Instr} {r : Registers}
    (h : ∀ i ∈ p, (effect cfg r i).1 = r) :
    programEffect cfg p r = (r, p.map fun i => respond (effect cfg r i)) := by
  induction p with
  | nil => rfl
  | cons i p ih =>
    obtain ⟨hi, hp⟩ := List.forall_mem_cons.mp h
    simp [programEffect, hi, ih hp]

/-- The state that a program leaves. -/
def afterProgram (p : List Instr) (s : State) : State :=
  { config := s.config
    regs := (programEffect s.config p s.regs).1
    inputs := s.inputs
    responses := (programEffect s.config p s.regs).2.reverse }

@[simp] theorem afterProgram_config (p : List Instr) (s : State) :
    (afterProgram p s).config = s.config := rfl

@[simp] theorem afterProgram_regs (p : List Instr) (s : State) :
    (afterProgram p s).regs = (programEffect s.config p s.regs).1 := rfl

theorem afterProgram_transcript (p : List Instr) (s : State) :
    (afterProgram p s).transcript = (programEffect s.config p s.regs).2 :=
  List.reverse_reverse _

/-- Every program runs to its end. -/
theorem runProgram_eq (p : List Instr) (s : State) : runProgram p s = .next (afterProgram p s) := by
  rw [runProgram, runWords_eq, runEffect_map_encode, afterProgram]

/-! ### Data and results read off responses -/

@[simp] theorem responseData_nil : responseData [] = [] := rfl

@[simp] theorem responseData_cons (x : Response) (rs : List Response) :
    responseData (x :: rs) = x.data ++ responseData rs := rfl

@[simp] theorem responseData_append (rs ts : List Response) :
    responseData (rs ++ ts) = responseData rs ++ responseData ts := List.flatMap_append

/-- A last response of code OK makes the data the result of DECODE.MSG (R74). -/
theorem decodeResult_of_last_ok {rs : List Response} {x : Response} (h : x.code = .ok) :
    decodeResult (rs ++ [x]) = some (.ok (responseData (rs ++ [x]))) := by
  simp [decodeResult, h]

theorem decodeResult_of_last_truncated {rs : List Response} {x : Response} (h : x.code = .truncated) :
    decodeResult (rs ++ [x]) = some (.error .truncated) := by
  simp [decodeResult, h]

theorem decodeResult_of_last_violation {rs : List Response} {x : Response} {v : Violation}
    (h : x.code = v.code) : decodeResult (rs ++ [x]) = some (.error (.protocolViolation v)) := by
  cases v <;> simp [decodeResult, h, Violation.code]

/-! ### The Cipher on whole messages (R53, R56) -/

theorem effect_ciphEnc_of_ascii {cfg : Config} {r : Registers} {c : Byte} (h : c.toNat ≤ 127) :
    effect cfg r (.ciphEnc c) = (r, .ok, [c ^^^ cfg.key]) :=
  if_neg fun hc => absurd ((aboveAscii_iff c).mp hc) (by omega)

theorem effect_ciphDec_of_ascii {cfg : Config} {r : Registers} {b : Byte}
    (h : (b ^^^ cfg.key).toNat ≤ 127) :
    effect cfg r (.ciphDec b) = (r, .ok, [b ^^^ cfg.key]) :=
  if_neg fun hb => absurd ((aboveAscii_iff _).mp hb) (by omega)

/-- Commands on single bytes that each keep the registers and answer OK with the byte `f b`: their responses. -/
theorem programEffect_map_of_ok {cfg : Config} {r : Registers} {mk : Byte → Instr} {f : Byte → Byte}
    {bs : List Byte} (h : ∀ b ∈ bs, effect cfg r (mk b) = (r, .ok, [f b])) :
    programEffect cfg (bs.map mk) r = (r, bs.map fun b => respond (r, .ok, [f b])) := by
  rw [programEffect_of_regs_kept (by simpa using fun b hb => congrArg Prod.fst (h b hb)), List.map_map]
  exact congrArg _ (List.map_congr_left fun b hb => congrArg respond (h b hb))

theorem responseData_map_ok (r : Registers) (f : Byte → Byte) (bs : List Byte) :
    responseData (bs.map fun b => respond (r, .ok, [f b])) = bs.map f := by
  induction bs with
  | nil => rfl
  | cons b bs ih => simp [ih]

/-- An ASCII text is encrypted character by character (R51, R56). -/
theorem encryptResult_of_ascii {cfg : Config} {text : List Byte} (r : Registers)
    (h : ∀ c ∈ text, c.toNat ≤ 127) :
    encryptResult (programEffect cfg (encryptProgram text) r).2 =
      .ok (text.map fun c => c ^^^ cfg.key) := by
  rw [encryptProgram, programEffect_map_of_ok fun c hc => effect_ciphEnc_of_ascii (h c hc)]
  simp [encryptResult, responseData_map_ok]

/-- A ciphertext of ASCII characters is decrypted byte by byte (R52, R56). -/
theorem decryptResult_of_ascii {cfg : Config} {bs : List Byte} (r : Registers)
    (h : ∀ b ∈ bs, (b ^^^ cfg.key).toNat ≤ 127) :
    decryptResult (programEffect cfg (decryptProgram bs) r).2 =
      .ok ((bs.map fun b => b ^^^ cfg.key).map BitVec.toNat) := by
  rw [decryptProgram, programEffect_map_of_ok fun b hb => effect_ciphDec_of_ascii (h b hb)]
  simp [decryptResult, responseData_map_ok]

/-- Decryption with the key of the encryption gives the text back (R53). -/
theorem decryptResult_encrypted {cfg : Config} {text : List Byte} (r : Registers)
    (h : ∀ c ∈ text, c.toNat ≤ 127) :
    decryptResult (programEffect cfg (decryptProgram (text.map fun c => c ^^^ cfg.key)) r).2 =
      .ok (text.map BitVec.toNat) := by
  rw [decryptResult_of_ascii r (by simpa [BitVec.xor_assoc] using h)]
  simp [Function.comp_def]

/-! ### The Encoder on whole messages (R59, R66) -/

@[simp] theorem messageBits_cons (b : Byte) (bs : List Byte) :
    messageBits (b :: bs) = byteBits b ++ messageBits bs := rfl

/-- The source's loop over bits is `encodeBits`, its symbols put after those so far. -/
theorem foldl_encodeStep (bits : List Bool) (p : Polarity) (out : List Symbol) :
    bits.foldl encodeStep (p, out) = ((encodeBits bits p).2, out ++ (encodeBits bits p).1) := by
  induction bits generalizing p out with
  | nil => simp [encodeBits]
  | cons bit bits ih =>
    cases bit <;> cases p <;> simp [encodeStep, encodeBits, ih, Polarity.mark, Polarity.flip]

/-- `encode` runs over the bits of the whole message from POS (R59). -/
theorem encodeMessage_eq (bs : List Byte) : encodeMessage bs = (encodeBits (messageBits bs) .pos).1 := by
  rw [encodeMessage, ← List.foldl_flatMap, foldl_encodeStep]
  rfl

/-- The wire bytes of a run of bits sent from polarity `p`. -/
def wireFrom (bits : List Bool) (p : Polarity) : List Byte := (encodeBits bits p).1.map Symbol.wire

theorem encodeToWire_eq (bs : List Byte) : encodeToWire bs = wireFrom (messageBits bs) .pos := by
  rw [encodeToWire, encodeMessage_eq, wireFrom]

/-- The data of consecutive ENC.BYTE commands are the wire bytes of their bits, from the polarity held. -/
theorem responseData_encBytes (cfg : Config) (bs : List Byte) (r : Registers) :
    responseData (programEffect cfg (bs.map .encByte) r).2 =
      wireFrom (messageBits bs) r.ePol := by
  induction bs generalizing r with
  | nil => rfl
  | cons b bs ih => simp [programEffect, effect, ih, wireFrom, encodeBits_append]

/-- The data of ENCODE.MSG are the wire bytes of `encode`, from any registers (R66). -/
theorem responseData_encodeProgram (cfg : Config) (bs : List Byte) (r : Registers) :
    responseData (programEffect cfg (encodeProgram bs) r).2 = encodeToWire bs := by
  rw [encodeToWire_eq]
  exact responseData_encBytes cfg bs _

/-! ### The decoding loop through the check of a symbol (R67, R72) -/

theorem decodeLoop_cons_of_error {p : Polarity} {x : Byte} {v : Violation}
    (h : checkSymbol p x = .error v) (xs : List Byte) (acc : Byte) (cnt : Nat) (out : List Byte) :
    decodeLoop (x :: xs) p acc cnt out = .error v := by
  rcases symbolOfWire_cases x with ⟨rfl, hx⟩ | ⟨rfl, hx⟩ | ⟨rfl, hx⟩ | ⟨hx3, hx⟩
  · cases p <;> cases h
  · cases p <;> cases h; rfl
  · cases p <;> cases h; rfl
  · have h0 : x ≠ 0x00#8 := by rintro rfl; simp at hx3
    have h1 : x ≠ 0x01#8 := by rintro rfl; simp at hx3
    have h2 : x ≠ 0x02#8 := by rintro rfl; simp at hx3
    rw [checkSymbol_unknown p hx3] at h
    cases h
    simp [decodeLoop, h0, h1, h2]

theorem decodeLoop_cons_of_ok {p q : Polarity} {x : Byte} {bit : Bool}
    (h : checkSymbol p x = .ok (bit, q)) (xs : List Byte) (acc : Byte) (cnt : Nat) (out : List Byte) :
    decodeLoop (x :: xs) p acc cnt out =
      if cnt + 1 = 8 then decodeLoop xs q 0x00#8 0 (out ++ [acc ||| (bitByte bit <<< cnt)])
      else decodeLoop xs q (acc ||| (bitByte bit <<< cnt)) (cnt + 1) out := by
  rcases symbolOfWire_cases x with ⟨rfl, hx⟩ | ⟨rfl, hx⟩ | ⟨rfl, hx⟩ | ⟨hx3, hx⟩
  · cases p <;> cases h <;> rfl
  · cases p <;> cases h; rfl
  · cases p <;> cases h; rfl
  · rw [checkSymbol_unknown p hx3] at h
    cases h

/-! ### Decoding undoes encoding (R69) -/

/-- The decoding loop accepts the symbol of a bit where it holds the polarity that the symbol was sent from. -/
theorem decodeLoop_wireFrom_cons (bit : Bool) (bits : List Bool) (p : Polarity) (acc : Byte) (cnt : Nat)
    (out : List Byte) :
    decodeLoop (wireFrom (bit :: bits) p) p acc cnt out =
      if cnt + 1 = 8 then
        decodeLoop (wireFrom bits (flipIf bit p)) (flipIf bit p) 0x00#8 0 (out ++ [acc ||| (bitByte bit <<< cnt)])
      else
        decodeLoop (wireFrom bits (flipIf bit p)) (flipIf bit p) (acc ||| (bitByte bit <<< cnt)) (cnt + 1) out := by
  cases bit with
  | false => exact decodeLoop_cons_of_ok (checkSymbol_zero p) _ acc cnt out
  | true => exact decodeLoop_cons_of_ok (checkSymbol_mark p) _ acc cnt out

/-- The accumulator after the bits of a byte are placed one after the other, bit 0 first. -/
theorem placed_byteBits (b : Byte) :
    [0, 1, 2, 3, 4, 5, 6, 7].foldl (fun acc i => acc ||| (bitByte (b.getLsbD i) <<< i)) 0x00#8 = b := by
  revert b
  decide

/-- The symbols of a byte leave the loop at the start of the next byte, with that byte put out. -/
theorem decodeLoop_wireFrom_byte (b : Byte) (bits : List Bool) (p : Polarity) (out : List Byte) :
    ∃ q, decodeLoop (wireFrom (byteBits b ++ bits) p) p 0x00#8 0 out =
      decodeLoop (wireFrom bits q) q 0x00#8 0 (out ++ [b]) := by
  have hb := placed_byteBits b
  simp only [List.foldl_cons, List.foldl_nil] at hb
  simp only [byteBits, List.cons_append, List.nil_append, decodeLoop_wireFrom_cons, Nat.reduceAdd,
    Nat.reduceEqDiff, if_false, if_true, hb]
  exact ⟨_, rfl⟩

theorem decodeLoop_wireFrom_messageBits (bs : List Byte) (p : Polarity) (out : List Byte) :
    decodeLoop (wireFrom (messageBits bs) p) p 0x00#8 0 out = .ok (out ++ bs, 0) := by
  induction bs generalizing p out with
  | nil => simp [wireFrom, messageBits, encodeBits, decodeLoop]
  | cons b bs ih =>
    obtain ⟨q, hq⟩ := decodeLoop_wireFrom_byte b (messageBits bs) p out
    rw [messageBits_cons, hq, ih, List.append_assoc, List.singleton_append]

/-- Decoding an encoded message gives the message back, under either truncation policy (R69). -/
theorem decodeMessage_encodeToWire (cfg : Config) (bs : List Byte) :
    decodeMessage cfg (encodeToWire bs) = .ok bs := by
  rw [decodeMessage, encodeToWire_eq, decodeLoop_wireFrom_messageBits]
  simp

/-! ### The Decoder on whole messages (R74) -/

/-- What a run of DEC.SYM commands shows of the decoding loop, after the bytes `out`: the error held, or the bytes put
out and the count of bits placed. -/
def loopOutcome (out : List Byte) (e : Registers × List Response) : Except Violation (List Byte × Nat) :=
  match e.1.dErr with
  | some v => .error v
  | none => .ok (out ++ responseData e.2, e.1.dCnt.toNat)

theorem loopOutcome_of_error {out : List Byte} {e : Registers × List Response} {v : Violation}
    (h : e.1.dErr = some v) : loopOutcome out e = .error v := by
  rw [loopOutcome, h]

theorem loopOutcome_of_none {out : List Byte} {e : Registers × List Response} (h : e.1.dErr = none) :
    loopOutcome out e = .ok (out ++ responseData e.2, e.1.dCnt.toNat) := by
  rw [loopOutcome, h]

/-- A response puts its data between the bytes so far and those of the responses after it. -/
theorem loopOutcome_cons (out : List Byte) (r : Registers) (x : Response) (rs : List Response) :
    loopOutcome out (r, x :: rs) = loopOutcome (out ++ x.data) (r, rs) := by
  simp [loopOutcome]

/-- While an error is held DEC.SYM commands keep the registers (R79). -/
theorem programEffect_decSyms_of_error (cfg : Config) (xs : List Byte) {r : Registers} {v : Violation}
    (h : r.dErr = some v) : (programEffect cfg (xs.map .decSym) r).1 = r := by
  rw [programEffect_of_regs_kept (by simp [effect, h])]

theorem effect_decSym_of_error {r : Registers} {x : Byte} {v : Violation} (cfg : Config)
    (he : r.dErr = none) (h : checkSymbol r.dPol x = .error v) :
    effect cfg r (.decSym x) = ({ r with dErr := some v }, v.code, []) := by
  simp [effect, decSymEffect, he, h]

theorem effect_decSym_of_ok {r : Registers} {x : Byte} {bit : Bool} {q : Polarity} (cfg : Config)
    (he : r.dErr = none) (h : checkSymbol r.dPol x = .ok (bit, q)) (h7 : r.dCnt ≠ 7#3) :
    effect cfg r (.decSym x) =
      ({ r with dPol := q, dAcc := r.dAcc ||| (bitByte bit <<< r.dCnt.toNat), dCnt := r.dCnt + 1#3 }, .ok,
        []) := by
  simp [effect, decSymEffect, he, h, h7]

theorem effect_decSym_of_ok_last {r : Registers} {x : Byte} {bit : Bool} {q : Polarity} (cfg : Config)
    (he : r.dErr = none) (h : checkSymbol r.dPol x = .ok (bit, q)) (h7 : r.dCnt = 7#3) :
    effect cfg r (.decSym x) =
      ({ r with dPol := q, dAcc := 0x00#8, dCnt := 0#3 }, .ok,
        [r.dAcc ||| (bitByte bit <<< r.dCnt.toNat)]) := by
  simp [effect, decSymEffect, he, h, h7]

/-- The decoding loop of R67 gives what DEC.SYM commands show, from registers that hold no error. -/
theorem decodeLoop_eq (cfg : Config) (xs : List Byte) {r : Registers} (he : r.dErr = none) (out : List Byte) :
    decodeLoop xs r.dPol r.dAcc r.dCnt.toNat out =
      loopOutcome out (programEffect cfg (xs.map .decSym) r) := by
  induction xs generalizing r out with
  | nil => rw [loopOutcome_of_none he]; simp [decodeLoop, programEffect]
  | cons x xs ih =>
    rw [List.map_cons, programEffect, loopOutcome_cons]
    cases hx : checkSymbol r.dPol x with
    | error v =>
      rw [decodeLoop_cons_of_error hx, effect_decSym_of_error cfg he hx, loopOutcome_of_error]
      rw [programEffect_decSyms_of_error cfg xs rfl]
    | ok a =>
      obtain ⟨bit, q⟩ := a
      rw [decodeLoop_cons_of_ok hx]
      by_cases h7 : r.dCnt = 7#3
      · rw [effect_decSym_of_ok_last cfg he hx h7, if_pos (by simp [h7])]
        exact ih (r := { r with dPol := q, dAcc := 0x00#8, dCnt := 0#3 }) he _
      · have hcnt : (r.dCnt + 1#3).toNat = r.dCnt.toNat + 1 := by bv_omega
        rw [effect_decSym_of_ok cfg he hx h7, if_neg (by bv_omega), ← hcnt]
        simpa using ih (r := { r with
          dPol := q, dAcc := r.dAcc ||| (bitByte bit <<< r.dCnt.toNat), dCnt := r.dCnt + 1#3 }) he out

theorem endCode_of_error {cfg : Config} {r : Registers} {v : Violation} (h : r.dErr = some v) :
    endCode cfg r = v.code := by
  rw [endCode, h]

theorem endCode_of_none {cfg : Config} {r : Registers} (h : r.dErr = none) :
    endCode cfg r = if r.dCnt ≠ 0#3 ∧ cfg.rejectTruncated = true then .truncated else .ok := by
  rw [endCode, h]

/-- DEC.END completes the responses to a message's symbols, with or without that to a DEC.START before them, to those
that the result of `decode` is read off (R73, R74). -/
theorem decodeResult_decEnd (cfg : Config) {xs : List Byte} {e : Registers × List Response}
    {rs : List Response} (hloop : decodeLoop xs .pos 0x00#8 0 [] = loopOutcome [] e)
    (hdata : responseData rs = responseData e.2) :
    decodeResult (rs ++ [respond (effect cfg e.1 .decEnd)]) = some (decodeMessage cfg xs) := by
  rw [decodeMessage, hloop]
  cases he : e.1.dErr with
  | some v =>
    rw [loopOutcome_of_error he]
    exact decodeResult_of_last_violation (endCode_of_error he)
  | none =>
    have hcnt : e.1.dCnt.toNat ≠ 0 ↔ e.1.dCnt ≠ 0#3 := by bv_omega
    simp only [loopOutcome_of_none he, hcnt]
    by_cases htrunc : e.1.dCnt ≠ 0#3 ∧ cfg.rejectTruncated = true
    · rw [if_pos htrunc]
      exact decodeResult_of_last_truncated ((endCode_of_none he).trans (if_pos htrunc))
    · rw [if_neg htrunc, decodeResult_of_last_ok ((endCode_of_none he).trans (if_neg htrunc))]
      simp [effect, hdata]

/-- The result of DECODE.MSG is that of `decode`, from any registers (R74). -/
theorem decodeResult_decodeProgram (cfg : Config) (xs : List Byte) (r : Registers) :
    decodeResult (programEffect cfg (decodeProgram xs) r).2 = some (decodeMessage cfg xs) := by
  rw [decodeProgram, programEffect, programEffect_append]
  exact decodeResult_decEnd cfg (rs := respond (effect cfg r .decStart) :: _)
    (decodeLoop_eq cfg xs (r := decoderStart r) rfl []) rfl

/-! ### The obligations -/

/-- Settles O60: the composition of the results of the four programs (R2), by the round trips of the cipher (R53) and of
the line code (R69). -/
theorem plaintextTravelsEndToEnd : Obligations.PlaintextTravelsEndToEnd := by
  intro sender receiver text hkey htext
  refine ⟨text.map fun c => c ^^^ sender.config.key, _, _, _, _, runProgram_eq _ _, ?_, runProgram_eq _ _,
    runProgram_eq _ _, ?_, runProgram_eq _ _, ?_⟩
  · rw [afterProgram_transcript, encryptResult_of_ascii _ htext]
  · rw [afterProgram_transcript, afterProgram_transcript, responseData_encodeProgram,
      decodeResult_decodeProgram, decodeMessage_encodeToWire]
  · rw [afterProgram_transcript, afterProgram_config, hkey, decryptResult_encrypted _ htext]

/-- Settles O16: neither taking an input, nor a command, nor reset writes the configuration. -/
theorem configurationNeverChanges : Obligations.ConfigurationNeverChanges := by
  intro s t h
  obtain ⟨-, rfl⟩ | ⟨rest, -, rfl⟩ | ⟨w, rest, -, rfl⟩ := step_cases h
  · rfl
  · exact applyReset_config _
  · exact complete_config _ _ _ _

/-- Settles O12: the step takes the word, and issues it. -/
theorem stepRunsDecodedInstruction : Obligations.StepRunsDecodedInstruction := by
  intro s w rest i hs hw
  simp only [step, takeInput_cons hs, acceptInput, issue, hw]

/-- Settles O18, from the configuration that the start state is given. -/
theorem resetHasDefaultTruncationPolicy : Obligations.ResetHasDefaultTruncationPolicy := rfl

end Sys2Proof.Proofs

namespace Sys2Proof.Proofs

open Sys2Proof.Machine Sys2Proof.Laws Sys2Proof.Safety Sys2Proof.Claims

/-! ### The state after an effect, field by field -/

section
variable (s : State) (e : Effect)

@[simp] theorem after_config : (after s e).config = s.config := rfl
@[simp] theorem after_regs : (after s e).regs = e.1 := rfl
@[simp] theorem after_inputs : (after s e).inputs = s.inputs := rfl
@[simp] theorem after_responses : (after s e).responses = respond e :: s.responses := rfl

end

@[simp] theorem respond_status (e : Effect) : (respond e).status = status e.1 := rfl

/-! ### What a word and a command can do -/

theorem wordEffect_of_ok {w : Word} {i : Instr} (h : decode w = .ok i) (cfg : Config) (r : Registers) :
    wordEffect cfg r w = effect cfg r i := by
  rw [wordEffect, h]

theorem wordEffect_of_error {w : Word} {e : DecodeError} (h : decode w = .error e) (cfg : Config)
    (r : Registers) : wordEffect cfg r w = (r, .illegalCommand, []) := by
  rw [wordEffect, h]

/-- All that DEC.SYM can do (R72): it is ignored, it fails, it completes a byte, or it places a bit below bit 7. -/
theorem effect_decSym_cases (cfg : Config) (r : Registers) (imm : Byte) :
    effect cfg r (.decSym imm) = (r, .ignoredAfterError, []) ∨
      (∃ v, effect cfg r (.decSym imm) = ({ r with dErr := some v }, v.code, [])) ∨
      (∃ bit p, r.dCnt = 7#3 ∧ effect cfg r (.decSym imm) =
        ({ r with dPol := p, dAcc := 0x00#8, dCnt := 0#3 }, .ok,
          [r.dAcc ||| (bitByte bit <<< r.dCnt.toNat)])) ∨
      ∃ bit p, r.dCnt ≠ 7#3 ∧ effect cfg r (.decSym imm) =
        ({ r with dPol := p, dAcc := r.dAcc ||| (bitByte bit <<< r.dCnt.toNat), dCnt := r.dCnt + 1#3 }, .ok,
          []) := by
  by_cases he : r.dErr = none
  · cases hx : checkSymbol r.dPol imm with
    | error v => exact .inr (.inl ⟨v, effect_decSym_of_error cfg he hx⟩)
    | ok a =>
      obtain ⟨bit, p⟩ := a
      by_cases h7 : r.dCnt = 7#3
      · exact .inr (.inr (.inl ⟨bit, p, h7, effect_decSym_of_ok_last cfg he hx h7⟩))
      · exact .inr (.inr (.inr ⟨bit, p, h7, effect_decSym_of_ok cfg he hx h7⟩))
  · exact .inl (if_neg he)

/-! ### Agreement on the state of a unit (R20) -/

theorem agreeOn_refl (u : BlockUnit) (r : Registers) : AgreeOn u r r := by
  cases u with
  | cipher => trivial
  | encoder => rfl
  | decoder => exact ⟨rfl, rfl, rfl, rfl⟩

theorem agreeOn_trans {u : BlockUnit} {r₁ r₂ r₃ : Registers} (h : AgreeOn u r₁ r₂)
    (h' : AgreeOn u r₂ r₃) : AgreeOn u r₁ r₃ := by
  cases u with
  | cipher => trivial
  | encoder => exact Eq.trans h h'
  | decoder =>
    obtain ⟨hpol, hacc, hcnt, herr⟩ := h
    obtain ⟨hpol', hacc', hcnt', herr'⟩ := h'
    exact ⟨hpol.trans hpol', hacc.trans hacc', hcnt.trans hcnt', herr.trans herr'⟩

theorem agreeOn_symm {u : BlockUnit} {r r' : Registers} (h : AgreeOn u r r') : AgreeOn u r' r := by
  cases u with
  | cipher => trivial
  | encoder => exact Eq.symm h
  | decoder =>
    obtain ⟨hpol, hacc, hcnt, herr⟩ := h
    exact ⟨hpol.symm, hacc.symm, hcnt.symm, herr.symm⟩

/-- Registers that agree on the decoder differ in `E_POL` at most. -/
theorem agreeOn_decoder_iff {r r' : Registers} :
    AgreeOn .decoder r r' ↔ r' = { r with ePol := r'.ePol } := by
  cases r; cases r'
  simp [eq_comm]

/-- Commands of the Cipher write no register (R19). -/
theorem effect_regs_of_cipher {i : Instr} (h : unitOf i = .cipher) (cfg : Config) (r : Registers) :
    (effect cfg r i).1 = r := by
  cases i with
  | ciphEnc imm | ciphDec imm => simp only [effect]; split <;> rfl
  | encStart | encByte imm | decStart | decSym imm | decEnd => cases h

/-- Commands of the Decoder do not write `E_POL` (R14). -/
theorem effect_ePol_of_decoder {i : Instr} (h : unitOf i = .decoder) (cfg : Config) (r : Registers) :
    (effect cfg r i).1.ePol = r.ePol := by
  cases i with
  | ciphEnc imm | ciphDec imm | encStart | encByte imm => cases h
  | decStart | decEnd => rfl
  | decSym imm =>
    obtain h | ⟨v, h⟩ | ⟨bit, p, -, h⟩ | ⟨bit, p, -, h⟩ := effect_decSym_cases cfg r imm <;> rw [h]

/-- No command writes the state of a unit not its own (R20). -/
theorem agreeOn_effect_of_ne {u : BlockUnit} {i : Instr} (h : u ≠ unitOf i) (cfg : Config) (r : Registers) :
    AgreeOn u r (effect cfg r i).1 := by
  cases hi : unitOf i with
  | cipher => rw [effect_regs_of_cipher hi]; exact agreeOn_refl u r
  | encoder =>
    cases u with
    | cipher => trivial
    | encoder => exact absurd hi.symm h
    | decoder =>
      cases i with
      | encStart | encByte imm => exact ⟨rfl, rfl, rfl, rfl⟩
      | ciphEnc imm | ciphDec imm | decStart | decSym imm | decEnd => cases hi
  | decoder =>
    cases u with
    | cipher => trivial
    | encoder => exact (effect_ePol_of_decoder hi cfg r).symm
    | decoder => exact absurd hi.symm h

/-- DEC.SYM does the same whatever `E_POL` and the configuration are, and keeps `E_POL`. -/
theorem effect_decSym_with_ePol (cfg cfg' : Config) (r : Registers) (p : Polarity) (imm : Byte) :
    effect cfg' { r with ePol := p } (.decSym imm) =
      ({ (effect cfg r (.decSym imm)).1 with ePol := p }, (effect cfg r (.decSym imm)).2) := by
  simp only [effect, decSymEffect]
  by_cases he : r.dErr = none
  · simp only [he, if_true]
    cases checkSymbol r.dPol imm with
    | error v => rfl
    | ok a => simp only; split <;> rfl
  · simp only [he, if_false]

/-- No command reads the state of a unit not its own, only the Cipher reads KEY, and only DEC.END reads
REJECT_TRUNCATED (R20). -/
theorem effect_of_agreeOn {i : Instr} {cfg cfg' : Config} {r r' : Registers} (h : AgreeOn (unitOf i) r r')
    (hkey : unitOf i = .cipher → cfg.key = cfg'.key)
    (htrunc : i = .decEnd → cfg.rejectTruncated = cfg'.rejectTruncated) :
    (effect cfg r i).2 = (effect cfg' r' i).2 ∧
      AgreeOn (unitOf i) (effect cfg r i).1 (effect cfg' r' i).1 := by
  cases i with
  | ciphEnc imm | ciphDec imm =>
    simp only [effect, hkey rfl]
    split <;> exact ⟨rfl, trivial⟩
  | encStart => exact ⟨rfl, rfl⟩
  | encByte imm =>
    have hpol : r.ePol = r'.ePol := h
    simp only [effect, hpol]
    exact ⟨trivial, rfl⟩
  | decStart => exact ⟨rfl, rfl, rfl, rfl, rfl⟩
  | decSym imm =>
    rw [agreeOn_decoder_iff.mp h, effect_decSym_with_ePol cfg cfg' r]
    exact ⟨rfl, rfl, rfl, rfl, rfl⟩
  | decEnd =>
    obtain ⟨-, -, hcnt, herr⟩ := h
    refine ⟨?_, rfl, rfl, rfl, rfl⟩
    simp only [effect, endCode, hcnt, herr, htrunc rfl]

/-! ### A run of words, and of one unit's commands alone (R35) -/

theorem wordOfUnit_eq_true {u : BlockUnit} {w : Word} (h : wordOfUnit u w = true) :
    ∃ i, decode w = .ok i ∧ unitOf i = u := by
  rw [wordOfUnit] at h
  cases hw : decode w with
  | ok i => exact ⟨i, rfl, by simpa [hw] using h⟩
  | error e => simp [hw] at h

/-- A word that is no command of a unit, illegal or of another one, leaves the unit's state. -/
theorem agreeOn_wordEffect {u : BlockUnit} {w : Word} (h : wordOfUnit u w = false) (cfg : Config)
    (r : Registers) : AgreeOn u r (wordEffect cfg r w).1 := by
  rw [wordOfUnit] at h
  cases hw : decode w with
  | ok i =>
    rw [wordEffect_of_ok hw]
    refine agreeOn_effect_of_ne ?_ cfg r
    rintro rfl
    simp [hw] at h
  | error e => rw [wordEffect_of_error hw]; exact agreeOn_refl u r

theorem runEffect_cons (cfg : Config) (w : Word) (ws : List Word) (r : Registers) :
    runEffect cfg (w :: ws) r =
      ((runEffect cfg ws (wordEffect cfg r w).1).1,
        respond (wordEffect cfg r w) :: (runEffect cfg ws (wordEffect cfg r w).1).2) := rfl

theorem outcomeOf_respond (e : Effect) : outcomeOf (respond e) = e.2 := rfl

theorem outcomesOfUnit_cons (u : BlockUnit) (w : Word) (ws : List Word) (x : Response)
    (rs : List Response) :
    outcomesOfUnit u (w :: ws) (x :: rs) =
      if wordOfUnit u w = true then outcomeOf x :: outcomesOfUnit u ws rs else outcomesOfUnit u ws rs := by
  simp only [outcomesOfUnit, List.zip_cons_cons, List.filter_cons]
  split <;> rfl

/-- From registers that agree on a unit, all the words and the unit's commands alone leave its state the same and give
its commands the same codes and data. -/
theorem runEffect_filter_wordOfUnit (u : BlockUnit) (cfg : Config) (ws : List Word) {r r' : Registers}
    (h : AgreeOn u r r') :
    AgreeOn u (runEffect cfg ws r).1 (runEffect cfg (ws.filter (wordOfUnit u)) r').1 ∧
      outcomesOfUnit u ws (runEffect cfg ws r).2 =
        (runEffect cfg (ws.filter (wordOfUnit u)) r').2.map outcomeOf := by
  induction ws generalizing r r' with
  | nil => exact ⟨h, rfl⟩
  | cons w ws ih =>
    rw [runEffect_cons, outcomesOfUnit_cons]
    by_cases hw : wordOfUnit u w = true
    · obtain ⟨i, hdec, rfl⟩ := wordOfUnit_eq_true hw
      obtain ⟨hout, hagree⟩ := effect_of_agreeOn h (fun _ => rfl) (fun _ => rfl) (cfg := cfg) (cfg' := cfg)
      rw [← wordEffect_of_ok hdec, ← wordEffect_of_ok hdec] at hout hagree
      obtain ⟨hregs, houts⟩ := ih hagree
      rw [if_pos hw, List.filter_cons_of_pos hw, runEffect_cons, List.map_cons, outcomeOf_respond,
        outcomeOf_respond, hout, houts]
      exact ⟨hregs, rfl⟩
    · rw [if_neg hw, List.filter_cons_of_neg hw]
      exact ih (agreeOn_trans (agreeOn_symm (agreeOn_wordEffect (by simpa using hw) cfg r)) h)

/-! ### The accumulator stays below the count (R25) -/

theorem bitByte_shift_lt (bit : Bool) (n : Nat) : (bitByte bit <<< n).toNat < 2 ^ (n + 1) := by
  have hbit : (bitByte bit).toNat ≤ 1 := by cases bit <;> decide
  calc (bitByte bit <<< n).toNat ≤ (bitByte bit).toNat * 2 ^ n := by
        rw [BitVec.toNat_shiftLeft, Nat.shiftLeft_eq]; exact Nat.mod_le _ _
    _ ≤ 1 * 2 ^ n := Nat.mul_le_mul_right _ hbit
    _ < 2 ^ (n + 1) := by rw [one_mul]; exact Nat.pow_lt_pow_right (by decide) n.lt_succ_self

/-- A bit placed at position `n` of a byte below `2^n` leaves it below `2^(n+1)`. -/
theorem or_bitByte_shift_lt {acc : Byte} {n : Nat} (bit : Bool) (h : acc.toNat < 2 ^ n) :
    (acc ||| (bitByte bit <<< n)).toNat < 2 ^ (n + 1) := by
  rw [BitVec.toNat_or]
  exact Nat.or_lt_two_pow (h.trans (Nat.pow_lt_pow_right (by decide) n.lt_succ_self)) (bitByte_shift_lt bit n)

theorem accBelowCount_of_dAcc_eq_zero {r : Registers} (h : r.dAcc = 0x00#8) : AccBelowCount r := by
  simp [h]

/-- Every command keeps `D_ACC < 2^D_CNT`. -/
theorem accBelowCount_effect {r : Registers} (h : AccBelowCount r) (cfg : Config) (i : Instr) :
    AccBelowCount (effect cfg r i).1 := by
  cases i with
  | ciphEnc imm | ciphDec imm => rwa [effect_regs_of_cipher rfl]
  | encStart | encByte imm => exact h
  | decStart | decEnd => exact accBelowCount_of_dAcc_eq_zero rfl
  | decSym imm =>
    obtain hs | ⟨v, hs⟩ | ⟨bit, p, -, hs⟩ | ⟨bit, p, h7, hs⟩ := effect_decSym_cases cfg r imm
    · rwa [hs]
    · rw [hs]; exact h
    · rw [hs]; exact accBelowCount_of_dAcc_eq_zero rfl
    · have hcnt : (r.dCnt + 1#3).toNat = r.dCnt.toNat + 1 := by bv_omega
      simp only [hs, AccBelowCount, hcnt]
      exact or_bitByte_shift_lt bit h

theorem accBelowCount_wordEffect {r : Registers} (h : AccBelowCount r) (cfg : Config) (w : Word) :
    AccBelowCount (wordEffect cfg r w).1 := by
  cases hw : decode w with
  | ok i => rw [wordEffect_of_ok hw]; exact accBelowCount_effect h cfg i
  | error e => rwa [wordEffect_of_error hw]

/-! ### Codes and data of a response (R23, R24) -/

theorem endCode_mem (cfg : Config) (r : Registers) : endCode cfg r ∈ codesOf .decEnd := by
  cases he : r.dErr with
  | some v => rw [endCode_of_error he]; cases v <;> decide
  | none => rw [endCode_of_none he]; split <;> decide

/-- A command responds a code that R24 lets it raise. -/
theorem effect_code_mem (cfg : Config) (r : Registers) (i : Instr) :
    (effect cfg r i).2.1 ∈ codesOf i := by
  cases i with
  | ciphEnc imm | ciphDec imm => simp only [effect]; split <;> simp [codesOf]
  | encStart | encByte imm | decStart => exact List.mem_singleton_self _
  | decEnd => exact endCode_mem cfg r
  | decSym imm =>
    obtain hs | ⟨v, hs⟩ | ⟨bit, p, -, hs⟩ | ⟨bit, p, -, hs⟩ := effect_decSym_cases cfg r imm <;>
      simp only [hs]
    · simp [codesOf]
    · cases v <;> simp [codesOf, Violation.code]
    · simp [codesOf]
    · simp [codesOf]

/-- A command gives as many bytes as R23 says. -/
theorem effect_data_length (cfg : Config) (r : Registers) (i : Instr) :
    (effect cfg r i).2.2.length = dataLength r (effect cfg r i).2.1 i := by
  cases i with
  | ciphEnc imm | ciphDec imm => simp only [effect]; split <;> rfl
  | encStart | decStart | decEnd => rfl
  | encByte imm => simp [effect, dataLength]
  | decSym imm =>
    obtain hs | ⟨v, hs⟩ | ⟨bit, p, h7, hs⟩ | ⟨bit, p, h7, hs⟩ := effect_decSym_cases cfg r imm <;>
      rw [hs]
    · rfl
    · cases v <;> rfl
    · exact (if_pos ⟨rfl, h7⟩).symm
    · exact (if_neg fun h => h7 h.2).symm

theorem wordEffect_data_length (cfg : Config) (r : Registers) (w : Word) :
    (wordEffect cfg r w).2.2.length = wordDataLength w r (wordEffect cfg r w).2.1 := by
  rw [wordDataLength]
  cases hw : decode w with
  | ok i => rw [wordEffect_of_ok hw]; exact effect_data_length cfg r i
  | error e => rw [wordEffect_of_error hw]; rfl

/-! ### The obligations -/

/-- Settles O27, by induction over the words: the unit's own commands read and write its state alone (R20), and the
other words leave it. -/
theorem interleavedUnitsDoNotInterfere : Obligations.InterleavedUnitsDoNotInterfere := by
  intro u ws s
  refine ⟨_, _, runWords_eq ws s, runWords_eq _ s, ?_⟩
  simp only [transcript_eq, List.reverse_reverse]
  exact runEffect_filter_wordOfUnit u s.config ws (agreeOn_refl u s.regs)

/-- Settles O28, by the cases of a step: reset clears both registers, and a placed bit lies below the new count. -/
theorem accumulatorStaysBelowCount : Obligations.AccumulatorStaysBelowCount := by
  intro s t hacc h
  obtain ⟨-, rfl⟩ | ⟨rest, -, rfl⟩ | ⟨w, rest, -, rfl⟩ := step_cases h
  · exact hacc
  · exact accBelowCount_of_dAcc_eq_zero rfl
  · exact accBelowCount_wordEffect hacc s.config w

/-- Settles O15, by the cases of a step: idle, reset, or a word with its response. -/
theorem stepTakesOneInput : Obligations.StepTakesOneInput := by
  intro s t h
  obtain ⟨hs, rfl⟩ | ⟨rest, hs, rfl⟩ | ⟨w, rest, hs, rfl⟩ := step_cases h <;> simp [hs]

/-- Settles O21, field by field (R22). -/
theorem statusShowsWholeState : Obligations.StatusShowsWholeState := by
  intro r
  obtain ⟨hepol, hdpol, hcnt, herr, hacc⟩ :=
    parts_of_word r.dAcc (errorBits r.dErr) r.dCnt r.dPol.bit r.ePol.bit
  simp [registersOfStatus, status, hepol, hdpol, hcnt, herr, hacc]

/-- Settles O22: the step of a word is its effect, whose data have the length of the table. -/
theorem responseHasTableLength : Obligations.ResponseHasTableLength := by
  intro s w rest hs
  exact ⟨_, _, step_command hs, rfl, rfl, wordEffect_data_length s.config s.regs w⟩

/-- Settles O23: the numbers by evaluation, the codes by the effect of each command. -/
theorem codesAreRaisedByTheirCommands : Obligations.CodesAreRaisedByTheirCommands := by
  refine ⟨rfl, fun c => by cases c <;> decide, fun i s => ?_⟩
  exact ⟨_, _, exec_eq i s, rfl, effect_code_mem s.config s.regs i⟩

/-- Settles O25: a command writes the registers of its own unit, and one response. -/
theorem commandFrame : Obligations.CommandFrame := by
  intro i s
  refine ⟨_, _, exec_eq i s, rfl, rfl, rfl, fun h => ?_, fun h => ?_⟩
  · exact agreeOn_symm (agreeOn_effect_of_ne h.symm s.config s.regs)
  · exact agreeOn_symm (agreeOn_effect_of_ne h.symm s.config s.regs)

/-- Settles O26: what a command writes, and what it reads. -/
theorem unitsAreDisjoint : Obligations.UnitsAreDisjoint := by
  refine ⟨fun i u s t h hu => ?_, fun i s s' hagree hkey htrunc => ?_⟩
  · rw [exec_eq] at h
    cases h
    exact agreeOn_effect_of_ne hu s.config s.regs
  · obtain ⟨hout, hregs⟩ := effect_of_agreeOn hagree hkey htrunc
    exact ⟨_, _, _, _, exec_eq i s, exec_eq i s', rfl, rfl, congrArg Prod.fst hout, congrArg Prod.snd hout,
      hregs⟩

/-- Settles O20: the fields of the word of five parts, and the response to a word. -/
theorem statusLayout : Obligations.StatusLayout := by
  refine ⟨fun r => parts_of_word _ _ _ _ _, fun p => by cases p <;> decide, fun p => by cases p <;> decide,
    rfl, rfl, rfl, rfl, rfl, fun s w rest hs => ?_⟩
  exact ⟨_, _, step_command hs, rfl, rfl⟩

/-- Settles O29: `D_ACC` is 0 at reset and at the start of a message. -/
theorem accumulatorBelowCountAtStart : Obligations.AccumulatorBelowCountAtStart := by
  refine ⟨accBelowCount_of_dAcc_eq_zero rfl, fun s => ⟨_, _, exec_eq .decStart s, exec_eq .decEnd s, ?_, ?_⟩⟩
  · exact accBelowCount_of_dAcc_eq_zero rfl
  · exact accBelowCount_of_dAcc_eq_zero rfl

end Sys2Proof.Proofs

namespace Sys2Proof.Proofs

open Sys2Proof.Machine Sys2Proof.Laws Sys2Proof.Claims

/-! ### Which fields decode (R41 to R43) -/

theorem decodeFields_of_dataOpcode {op : Byte} (h : op ∈ dataOpcodes) (imm : Byte) :
    ∃ i, decodeFields { op := op, imm := imm } = .ok i := by
  simp only [dataOpcodes, List.mem_cons, List.not_mem_nil, or_false] at h
  obtain rfl | rfl | rfl | rfl := h <;> exact ⟨_, rfl⟩

theorem decodeFields_of_bareOpcode {op : Byte} (h : op ∈ bareOpcodes) :
    ∃ i, decodeFields { op := op, imm := 0x00#8 } = .ok i := by
  simp only [bareOpcodes, List.mem_cons, List.not_mem_nil, or_false] at h
  obtain rfl | rfl | rfl := h <;> exact ⟨_, rfl⟩

theorem decodeFields_reservedOperand {op imm : Byte} (h : op ∈ bareOpcodes) (himm : imm ≠ 0x00#8) :
    decodeFields { op := op, imm := imm } = .error (.reservedOperand op imm) := by
  simp only [bareOpcodes, List.mem_cons, List.not_mem_nil, or_false] at h
  obtain rfl | rfl | rfl := h <;> exact if_neg himm

theorem decodeFields_illegalOpcode {op : Byte} (hdata : op ∉ dataOpcodes) (hbare : op ∉ bareOpcodes)
    (imm : Byte) : decodeFields { op := op, imm := imm } = .error (.illegalOpcode op) := by
  simp only [dataOpcodes, bareOpcodes, List.mem_cons, List.not_mem_nil, or_false, not_or] at hdata hbare
  simp [decodeFields, hdata, hbare]

theorem not_bareOpcode_of_dataOpcode : ∀ op ∈ dataOpcodes, op ∉ bareOpcodes := by decide

theorem wellFormed_iff (f : Fields) :
    f.wellFormed = true ↔ f.op ∈ dataOpcodes ∨ f.op ∈ bareOpcodes ∧ f.imm = 0x00#8 := by
  have hdisj := not_bareOpcode_of_dataOpcode f.op
  by_cases hbare : f.op ∈ bareOpcodes
  · have hdata : f.op ∉ dataOpcodes := fun h => hdisj h hbare
    simp [Fields.wellFormed, Fields.opcodeKnown, Fields.operandLegal, hbare, hdata]
  · simp [Fields.wellFormed, Fields.opcodeKnown, Fields.operandLegal, hbare]

theorem decodeFields_of_wellFormed {f : Fields} (h : f.wellFormed = true) :
    ∃ i, decodeFields f = .ok i := by
  obtain ⟨op, imm⟩ := f
  obtain hdata | ⟨hbare, rfl⟩ := (wellFormed_iff _).mp h
  · exact decodeFields_of_dataOpcode hdata imm
  · exact decodeFields_of_bareOpcode hbare

/-- The opcodes that R43 lists as outside the opcode map. -/
theorem unknownOpcode_of_range {op : Byte}
    (h : op.toNat = 0x00 ∨ (0x03 ≤ op.toNat ∧ op.toNat ≤ 0x0F) ∨
      (0x12 ≤ op.toNat ∧ op.toNat ≤ 0x1F) ∨ 0x23 ≤ op.toNat) :
    op ∉ dataOpcodes ∧ op ∉ bareOpcodes := by
  have hknown : ∀ op ∈ dataOpcodes ++ bareOpcodes,
      ¬(op.toNat = 0x00 ∨ (0x03 ≤ op.toNat ∧ op.toNat ≤ 0x0F) ∨
        (0x12 ≤ op.toNat ∧ op.toNat ≤ 0x1F) ∨ 0x23 ≤ op.toNat) := by decide
  exact ⟨fun hop => hknown op (List.mem_append_left _ hop) h,
    fun hop => hknown op (List.mem_append_right _ hop) h⟩

/-! ### A word and its command -/

theorem decodeBare_eq_ok {i j : Instr} {f : Fields} (h : decodeBare i f = .ok j) :
    j = i ∧ f.imm = 0x00#8 := by
  unfold decodeBare at h
  split at h
  · next himm => cases h; exact ⟨rfl, himm⟩
  · cases h

/-- Fields that decode to a command are those of the command's word. -/
theorem encode_of_decodeFields {f : Fields} {i : Instr} (h : decodeFields f = .ok i) :
    encode i = wordOf f.op f.imm := by
  unfold decodeFields at h
  split_ifs at h with hop hop hop hop hop hop hop <;> rw [hop]
  · cases h; rfl
  · cases h; rfl
  · obtain ⟨rfl, himm⟩ := decodeBare_eq_ok h; rw [himm]; rfl
  · cases h; rfl
  · obtain ⟨rfl, himm⟩ := decodeBare_eq_ok h; rw [himm]; rfl
  · cases h; rfl
  · obtain ⟨rfl, himm⟩ := decodeBare_eq_ok h; rw [himm]; rfl

/-- A word decodes to a command exactly if it is the command's word. -/
theorem decode_eq_ok_iff {w : Word} {i : Instr} : decode w = .ok i ↔ encode i = w := by
  constructor
  · intro h
    rw [encode_of_decodeFields h, wordOf_fieldsOf]
  · rintro rfl
    exact decode_encode i

theorem encode_injective : Function.Injective encode := fun i j h => by
  simpa using (decode_eq_ok_iff.mpr h).symm

theorem wellFormed_encode (i : Instr) : (fieldsOf (encode i)).wellFormed = true := by
  cases i with
  | ciphEnc imm => exact WordFields.ciphEnc imm
  | ciphDec imm => exact WordFields.ciphDec imm
  | encStart => exact WordFields.encStart
  | encByte imm => exact WordFields.encByte imm
  | decStart => exact WordFields.decStart
  | decSym imm => exact WordFields.decSym imm
  | decEnd => exact WordFields.decEnd

/-! ### Counting the command words (R43) -/

/-- The commands by their operand: four with a byte, and three without. -/
def instrEquiv : Instr ≃ (Byte ⊕ Byte ⊕ Byte ⊕ Byte) ⊕ Fin 3 where
  toFun
    | .ciphEnc imm => .inl (.inl imm)
    | .ciphDec imm => .inl (.inr (.inl imm))
    | .encByte imm => .inl (.inr (.inr (.inl imm)))
    | .decSym imm => .inl (.inr (.inr (.inr imm)))
    | .encStart => .inr 0
    | .decStart => .inr 1
    | .decEnd => .inr 2
  invFun
    | .inl (.inl imm) => .ciphEnc imm
    | .inl (.inr (.inl imm)) => .ciphDec imm
    | .inl (.inr (.inr (.inl imm))) => .encByte imm
    | .inl (.inr (.inr (.inr imm))) => .decSym imm
    | .inr 0 => .encStart
    | .inr 1 => .decStart
    | .inr 2 => .decEnd
  left_inv i := by cases i <;> rfl
  right_inv x := by
    obtain (_ | _ | _ | _) | n := x
    case inr => fin_cases n <;> rfl
    all_goals rfl

theorem natCard_bitVec (n : Nat) : Nat.card (BitVec n) = 2 ^ n :=
  (Nat.card_congr BitVec.equivFin.toEquiv).trans (Nat.card_fin _)

theorem natCard_instr : Nat.card Instr = 1027 := by
  rw [Nat.card_congr instrEquiv]
  simp only [Nat.card_sum, natCard_bitVec, Nat.card_fin]
  norm_num

/-- The words that decode to a command are as many as the commands. -/
theorem natCard_legalWords : Nat.card { w : Word // ∃ i, decode w = .ok i } = Nat.card Instr := by
  refine (Nat.card_eq_of_bijective (fun i => ⟨encode i, i, decode_encode i⟩) ⟨fun i j h => ?_, ?_⟩).symm
  · exact encode_injective (congrArg Subtype.val h)
  · rintro ⟨w, i, h⟩
    exact ⟨i, Subtype.ext (decode_eq_ok_iff.mp h)⟩

theorem exists_decode_error_iff (w : Word) : (∃ e, decode w = .error e) ↔ ¬∃ i, decode w = .ok i := by
  cases decode w <;> simp

/-- Every word is a command or illegal, and not both. -/
theorem natCard_legalWords_add_illegalWords :
    Nat.card { w : Word // ∃ i, decode w = .ok i } + Nat.card { w : Word // ∃ e, decode w = .error e } =
      2 ^ 16 := by
  classical
  rw [Nat.card_congr (Equiv.subtypeEquivRight exists_decode_error_iff), ← Nat.card_sum,
    Nat.card_congr (Equiv.sumCompl _), natCard_bitVec]

/-! ### The step of an illegal word (R42, R43) -/

theorem step_of_decode_error {w : Word} {e : DecodeError} {s : State} {rest : List HostInput}
    (hw : decode w = .error e) (hs : s.inputs = .command w :: rest) :
    step s = .next (answer { s with inputs := rest } s.regs .illegalCommand []) := by
  rw [step_command hs, wordEffect_of_error hw]
  rfl

theorem exists_step (s : State) : ∃ t, step s = .next t := by
  rcases hs : s.inputs with _ | ⟨_ | _, rest⟩
  · exact ⟨_, step_idle hs⟩
  · exact ⟨_, step_command hs⟩
  · exact ⟨_, step_reset hs⟩

/-! ### Bytes as operands (R48, R49) -/

theorem operandByte_number (symbols : Bool) (b : Byte) : operandByte symbols (.number b.toNat) = some b := by
  rw [operandByte, if_pos (by omega), BitVec.ofNat_toNat, BitVec.setWidth_eq]

theorem operandBytes_numbers (symbols : Bool) (bs : List Byte) :
    operandBytes symbols (bs.map fun b => .number b.toNat) = some bs := by
  induction bs with
  | nil => rfl
  | cons b bs ih => rw [List.map_cons, operandBytes, operandByte_number, ih]

/-! ### Assembling a listed line (R48) -/

/-- The character goes on with the word being read. -/
def isWordChar (c : Char) : Bool :=
  !(c == ';' || c == ' ' || c == '\t' || c == ',' || c == quoteChar)

theorem tokenize_wordChar {c : Char} (h : isWordChar c = true) (rest cur : List Char) :
    tokenize (c :: rest) (.letters cur) = tokenize rest (.letters (c :: cur)) := by
  simp only [isWordChar, Bool.not_eq_true', Bool.or_eq_false_iff, beq_eq_false_iff_ne] at h
  obtain ⟨⟨⟨⟨hsemi, hblank⟩, htab⟩, hcomma⟩, hquote⟩ := h
  simp [tokenize, hsemi, hblank, htab, hcomma, hquote]

theorem tokenize_wordChars {cs : List Char} (h : ∀ c ∈ cs, isWordChar c = true) (rest cur : List Char) :
    tokenize (cs ++ rest) (.letters cur) = tokenize rest (.letters (cs.reverse ++ cur)) := by
  induction cs generalizing cur with
  | nil => rfl
  | cons c cs ih =>
    obtain ⟨hc, hcs⟩ := List.forall_mem_cons.mp h
    rw [List.cons_append, tokenize_wordChar hc, ih hcs]
    simp

theorem flushWord_reverse {cs : List Char} (h : cs ≠ []) : flushWord cs.reverse = [.word cs] := by
  simp [flushWord, h]

/-- A line of one word is one token. -/
theorem tokenize_word {cs : List Char} (h : ∀ c ∈ cs, isWordChar c = true) (hne : cs ≠ []) :
    tokenize cs (.letters []) = [.word cs] := by
  simpa [tokenize, flushWord_reverse hne] using tokenize_wordChars h [] []

/-- A word up to a blank is the first token. -/
theorem tokenize_word_blank {cs : List Char} (h : ∀ c ∈ cs, isWordChar c = true) (hne : cs ≠ [])
    (rest : List Char) :
    tokenize (cs ++ ' ' :: rest) (.letters []) = .word cs :: tokenize rest (.letters []) := by
  simp [tokenize_wordChars h, tokenize, flushWord_reverse hne]

theorem isWordChar_letters (m : Mnemonic) : ∀ c ∈ letters m, isWordChar c = true :=
  List.all_eq_true.mp (by cases m <;> rfl)

theorem letters_ne_nil (m : Mnemonic) : letters m ≠ [] := by cases m <;> decide

theorem mnemonicOf_letters (m : Mnemonic) : mnemonicOf (letters m) = some m := by cases m <;> rfl

theorem hexDigit_spec : ∀ n < 16, isWordChar (hexDigit n) = true ∧ digitValue (hexDigit n) = some n := by
  decide

/-- The operand of a listed line, as `listingWithByte` writes it. -/
def hexOperand (b : Byte) : List Char := ['0', 'x', hexDigit (b.toNat / 16), hexDigit (b.toNat % 16)]

theorem listingWithByte_eq (m : Mnemonic) (b : Byte) :
    listingWithByte m b = letters m ++ ' ' :: hexOperand b := rfl

theorem tokenize_hexOperand (b : Byte) : tokenize (hexOperand b) (.letters []) = [.word (hexOperand b)] := by
  refine tokenize_word ?_ (List.cons_ne_nil _ _)
  have hhigh := (hexDigit_spec (b.toNat / 16) (by omega)).1
  have hlow := (hexDigit_spec (b.toNat % 16) (by omega)).1
  have hmark : isWordChar '0' = true ∧ isWordChar 'x' = true := by decide
  simp [hexOperand, hhigh, hlow, hmark]

theorem parseOperand_hexOperand (b : Byte) : parseOperand (.word (hexOperand b)) = some (.number b.toNat) := by
  have hhigh : b.toNat / 16 < 16 := by omega
  have hlow : b.toNat % 16 < 16 := by omega
  simp [parseOperand, hexOperand, digitsValue, hexDigit_spec _ hhigh, hexDigit_spec _ hlow, hhigh, hlow,
    Nat.div_add_mod']

theorem assembleLine_letters {m : Mnemonic} {i : Instr} (h : lineCommands m [] = some [i]) :
    assembleLine (letters m) = some [encode i] := by
  simp [assembleLine, tokenize_word (isWordChar_letters m) (letters_ne_nil m), mnemonicOf_letters,
    parseOperands, h]

theorem assembleLine_listingWithByte {m : Mnemonic} {i : Instr} {b : Byte}
    (h : lineCommands m [.number b.toNat] = some [i]) :
    assembleLine (listingWithByte m b) = some [encode i] := by
  simp [assembleLine, listingWithByte_eq, tokenize_word_blank (isWordChar_letters m) (letters_ne_nil m),
    tokenize_hexOperand, mnemonicOf_letters, parseOperands, parseOperand_hexOperand, h]

theorem withOneByte_number (mk : Byte → Instr) (symbols : Bool) (b : Byte) :
    withOneByte mk (operandBytes symbols [.number b.toNat]) = some [mk b] := by
  rw [show operandBytes symbols [.number b.toNat] = some [b] from operandBytes_numbers symbols [b]]
  rfl

/-! ### The decoder's verdict on the order of symbols (R67, R70) -/

/-- The polarity after an accepted symbol. -/
def nextPolarity (p : Polarity) (x : Byte) : Except Violation Polarity :=
  (checkSymbol p x).map Prod.snd

/-- The polarity after a list of wire bytes, or the first violation: it alone decides whether a message is accepted,
whatever bits are placed (R70). -/
def polarityAfter (p : Polarity) (xs : List Byte) : Except Violation Polarity := xs.foldlM nextPolarity p

theorem polarityAfter_cons (p : Polarity) (x : Byte) (xs : List Byte) :
    polarityAfter p (x :: xs) = nextPolarity p x >>= fun q => polarityAfter q xs := List.foldlM_cons

theorem polarityAfter_append (p : Polarity) (xs ys : List Byte) :
    polarityAfter p (xs ++ ys) = polarityAfter p xs >>= fun q => polarityAfter q ys := List.foldlM_append

/-- The decoding loop fails exactly where the order of the symbols does. -/
theorem decodeLoop_eq_error_iff (xs : List Byte) (p : Polarity) (acc : Byte) (cnt : Nat) (out : List Byte)
    (v : Violation) : decodeLoop xs p acc cnt out = .error v ↔ polarityAfter p xs = .error v := by
  induction xs generalizing p acc cnt out with
  | nil => simp [decodeLoop, polarityAfter, pure, Except.pure]
  | cons x xs ih =>
    rw [polarityAfter_cons, nextPolarity]
    cases hx : checkSymbol p x with
    | error u =>
      rw [decodeLoop_cons_of_error hx]
      simp [Except.map, bind, Except.bind]
    | ok a =>
      rw [decodeLoop_cons_of_ok hx]
      split <;> exact ih _ _ _ _

theorem decodeMessage_eq_violation_iff (cfg : Config) (xs : List Byte) (v : Violation) :
    decodeMessage cfg xs = .error (.protocolViolation v) ↔ polarityAfter .pos xs = .error v := by
  rw [← decodeLoop_eq_error_iff xs .pos 0x00#8 0 []]
  unfold decodeMessage
  cases decodeLoop xs .pos 0x00#8 0 [] with
  | error u => simp
  | ok a => simp only; split <;> simp

/-- What is rejected from either polarity is rejected after any symbols. -/
theorem polarityAfter_append_of_forall_error {ys : List Byte}
    (h : ∀ p, ∃ v, polarityAfter p ys = .error v) (p : Polarity) (xs : List Byte) :
    ∃ v, polarityAfter p (xs ++ ys) = .error v := by
  rw [polarityAfter_append]
  cases polarityAfter p xs with
  | error v => exact ⟨v, rfl⟩
  | ok q => exact h q

theorem polarityAfter_cons_of_ok {p q : Polarity} {x : Byte} {bit : Bool}
    (h : checkSymbol p x = .ok (bit, q)) (xs : List Byte) :
    polarityAfter p (x :: xs) = polarityAfter q xs := by
  rw [polarityAfter_cons, nextPolarity, h]
  rfl

theorem polarityAfter_cons_of_error {p : Polarity} {x : Byte} {v : Violation}
    (h : checkSymbol p x = .error v) (xs : List Byte) : polarityAfter p (x :: xs) = .error v := by
  rw [polarityAfter_cons, nextPolarity, h]
  rfl

/-- Zeros keep the polarity. -/
theorem polarityAfter_zeros {zs : List Byte} (h : ∀ z ∈ zs, z = 0x01#8) (p : Polarity) (ys : List Byte) :
    polarityAfter p (zs ++ ys) = polarityAfter p ys := by
  induction zs with
  | nil => rfl
  | cons z zs ih =>
    obtain ⟨rfl, hzs⟩ := List.forall_mem_cons.mp h
    rw [List.cons_append, polarityAfter_cons_of_ok (checkSymbol_zero p), ih hzs]

theorem eq_or_eq_flip (p q : Polarity) : p = q ∨ p = q.flip := by cases p <;> cases q <;> decide

/-- The violation of a mark on the side that may not come next (R70). -/
def wrongSide : Polarity → Violation
  | .pos => .unexpectedNegative
  | .neg => .unexpectedPositive

theorem checkSymbol_wrongSide (p : Polarity) : checkSymbol p p.flip.mark.wire = .error (wrongSide p) := by
  cases p <;> rfl

theorem polarityAfter_wrongSide {zs : List Byte} (h : ∀ z ∈ zs, z = 0x01#8) (p : Polarity)
    (ys : List Byte) : polarityAfter p (zs ++ p.flip.mark.wire :: ys) = .error (wrongSide p) := by
  rw [polarityAfter_zeros h, polarityAfter_cons_of_error (checkSymbol_wrongSide p)]

/-- The mark of the expected side is accepted, and the same mark again is not. -/
theorem polarityAfter_expectedMark_twice {zs zs' : List Byte} (h : ∀ z ∈ zs, z = 0x01#8)
    (h' : ∀ z ∈ zs', z = 0x01#8) (p : Polarity) (ys : List Byte) :
    polarityAfter p (zs ++ p.mark.wire :: (zs' ++ p.mark.wire :: ys)) = .error (wrongSide p.flip) := by
  rw [polarityAfter_zeros h, polarityAfter_cons_of_ok (checkSymbol_mark p)]
  simpa using polarityAfter_wrongSide h' p.flip ys

/-- Two marks of one side with only zeros between them are rejected from either polarity: at the second mark where
the first is the one expected, and else at the first. -/
theorem polarityAfter_sameMark_twice {zs : List Byte} (h : ∀ z ∈ zs, z = 0x01#8) (side p : Polarity)
    (ys : List Byte) :
    ∃ v, polarityAfter p (side.mark.wire :: (zs ++ side.mark.wire :: ys)) = .error v := by
  obtain rfl | rfl := eq_or_eq_flip side p
  · exact ⟨_, polarityAfter_expectedMark_twice (List.forall_mem_nil _) h side ys⟩
  · exact ⟨_, polarityAfter_wrongSide (List.forall_mem_nil _) p _⟩

/-! ### The wire bytes (R45) -/

theorem symbolOfWire_eq_some_iff {x : Byte} {y : Symbol} : symbolOfWire x = some y ↔ x = y.wire := by
  constructor
  · intro h
    rcases symbolOfWire_cases x with ⟨rfl, hx⟩ | ⟨rfl, hx⟩ | ⟨rfl, hx⟩ | ⟨-, hx⟩ <;>
      rw [hx] at h <;> cases h <;> rfl
  · rintro rfl
    exact symbolOfWire_wire y

theorem wire_cases (y : Symbol) : y.wire = 0x01#8 ∨ y.wire = 0x02#8 ∨ y.wire = 0x00#8 := by
  cases y <;> decide

theorem symbolOfWire_eq_none {x : Byte} (h : 3 ≤ x.toNat) : symbolOfWire x = none := by
  rcases symbolOfWire_cases x with ⟨rfl, -⟩ | ⟨rfl, -⟩ | ⟨rfl, -⟩ | ⟨-, hx⟩
  · simp at h
  · simp at h
  · simp at h
  · exact hx

/-- A byte that is no symbol is answered OK by no DEC.SYM: it is ignored or it fails (R46, R72). -/
theorem effect_decSym_code_ne_ok (cfg : Config) (r : Registers) {x : Byte} (h : 3 ≤ x.toNat) :
    (effect cfg r (.decSym x)).2.1 ≠ .ok := by
  cases he : r.dErr with
  | some v => simp [effect, he]
  | none => simp [effect_decSym_of_error cfg he (checkSymbol_unknown r.dPol h), Violation.code]

theorem effect_decSym_ok {cfg : Config} {r : Registers} {x : Byte}
    (h : (effect cfg r (.decSym x)).2.1 = .ok) : x = 0x01#8 ∨ x = 0x02#8 ∨ x = 0x00#8 := by
  rcases symbolOfWire_cases x with ⟨hx, -⟩ | ⟨hx, -⟩ | ⟨hx, -⟩ | ⟨hx, -⟩
  · exact .inl hx
  · exact .inr (.inl hx)
  · exact .inr (.inr hx)
  · exact absurd h (effect_decSym_code_ne_ok cfg r hx)

/-! ### The obligations -/

/-- Settles O3, constructor by constructor (R39, R41). -/
theorem decodeOfEncode : Obligations.DecodeOfEncode := decode_encode

/-- Settles O4: the fields that decode to a command are those of its word, and a word is made of its fields. -/
theorem encodeOfDecode : Obligations.EncodeOfDecode := fun _ _ h => decode_eq_ok_iff.mp h

/-- Settles O7: the legal words are as many as the commands, and the illegal ones are the rest. -/
theorem legalWordCount : Obligations.LegalWordCount := by
  have hlegal := natCard_legalWords.trans natCard_instr
  have hall := natCard_legalWords_add_illegalWords
  rw [hlegal] at hall
  exact ⟨hlegal, by omega⟩

/-- Settles O8: a word that decodes is the word of its command, whose fields are well formed; and well-formed fields
decode. -/
theorem decodesIffWellFormed : Obligations.DecodesIffWellFormed := by
  intro w
  constructor
  · rintro ⟨i, h⟩
    rw [← decode_eq_ok_iff.mp h]
    exact wellFormed_encode i
  · exact decodeFields_of_wellFormed

/-- Settles O10: the line's tokens are the mnemonic and the operand, and the operand's two digits spell its byte. -/
theorem listingAssembles : Obligations.ListingAssembles := by
  intro i
  cases i with
  | encStart => exact assembleLine_letters (m := .encStart) rfl
  | decStart => exact assembleLine_letters (m := .decStart) rfl
  | decEnd => exact assembleLine_letters (m := .decEnd) rfl
  | ciphEnc imm | ciphDec imm | encByte imm | decSym imm =>
    exact assembleLine_listingWithByte (withOneByte_number _ _ imm)

/-- Settles O11: each operand stands for its byte, whether or not symbols may be named. -/
theorem pseudoInstructionsExpand : Obligations.PseudoInstructionsExpand := by
  intro bs
  simp [lineCommands, operandBytes_numbers, encryptProgram, decryptProgram, encodeProgram, decodeProgram]

/-- Settles O14: with no input, at reset and at any word, legal or not. -/
theorem stepAlwaysAnswers : Obligations.StepAlwaysAnswers := exists_step

/-- Settles O54, by the polarity the check of symbols holds: what it rejects from either
polarity it rejects anywhere. -/
theorem decodeRejectsViolations : Obligations.DecodeRejectsViolations := by
  simp only [Obligations.DecodeRejectsViolations, decodeMessage_eq_violation_iff]
  refine ⟨fun _ xs zs ys hzs => ⟨?_, ?_⟩, fun _ zs zs' ys hzs hzs' => ⟨?_, ?_⟩, fun _ xs ys x hx => ?_⟩
  · exact polarityAfter_append_of_forall_error (polarityAfter_sameMark_twice hzs .pos · ys) .pos xs
  · exact polarityAfter_append_of_forall_error (polarityAfter_sameMark_twice hzs .neg · ys) .pos xs
  · exact polarityAfter_wrongSide hzs .pos ys
  · exact polarityAfter_expectedMark_twice hzs hzs' .pos ys
  · exact polarityAfter_append_of_forall_error
      (fun p => ⟨_, polarityAfter_cons_of_error (checkSymbol_unknown p hx) ys⟩) .pos xs

/-- Settles O1: the decoder on a word written as `{op, imm}`, row by row. -/
theorem opcodeMapDecodes : Obligations.OpcodeMapDecodes :=
  ⟨decode_append _, decode_append _, rfl, decode_append _, rfl, decode_append _, rfl⟩

/-- Settles O2: each word is the word of its command (R41). -/
theorem tableWordsDecode : Obligations.TableWordsDecode :=
  ⟨decode_encode (.ciphEnc 0x41#8), decode_encode (.ciphDec 0xBF#8), decode_encode .encStart,
    decode_encode (.encByte 0xBF#8), decode_encode .decStart, decode_encode (.decSym 0x02#8),
    decode_encode .decEnd⟩

/-- Settles O5: a bare opcode with an operand has no command, and the step of such a word leaves the registers. -/
theorem reservedOperandIsIllegal : Obligations.ReservedOperandIsIllegal := by
  refine ⟨fun op imm s rest hop himm hs => ?_, fun op hop => ?_⟩
  · have hdec : decode (op ++ imm) = .error (.reservedOperand op imm) :=
      (decode_append op imm).trans (decodeFields_reservedOperand (by simpa [bareOpcodes] using hop) himm)
    exact ⟨hdec, step_of_decode_error hdec hs⟩
  · rw [decode_append]
    exact decodeFields_of_bareOpcode (by simpa [bareOpcodes] using hop)

/-- Settles O6: none of these opcodes is one of the seven known. -/
theorem unknownOpcodeIsIllegal : Obligations.UnknownOpcodeIsIllegal := by
  intro op imm s rest hop hs
  obtain ⟨hdata, hbare⟩ := unknownOpcode_of_range hop
  have hdec : decode (op ++ imm) = .error (.illegalOpcode op) :=
    (decode_append op imm).trans (decodeFields_illegalOpcode hdata hbare imm)
  exact ⟨hdec, step_of_decode_error hdec hs⟩

/-- Settles O45: the Encoder's data are wire bytes of symbols, and the Decoder's check fails for any other byte. -/
theorem wireBytesOfSymbols : Obligations.WireBytesOfSymbols := by
  refine ⟨rfl, rfl, rfl, rfl, rfl, rfl, fun _ _ => symbolOfWire_eq_some_iff, fun imm s => ?_, fun imm s => ?_⟩
  · refine ⟨_, _, exec_eq (.encByte imm) s, rfl, fun x hx => ?_⟩
    obtain ⟨y, -, rfl⟩ := List.mem_map.mp hx
    exact wire_cases y
  · exact ⟨_, _, exec_eq (.decSym imm) s, rfl, effect_decSym_ok⟩

/-- Settles O46: the check of an unknown byte fails from either polarity. -/
theorem unknownWireBytes : Obligations.UnknownWireBytes := by
  refine fun imm himm => ⟨symbolOfWire_eq_none himm, fun s he => ?_⟩
  rw [exec_eq, effect_decSym_of_error s.config he (checkSymbol_unknown s.regs.dPol himm)]
  rfl

end Sys2Proof.Proofs

namespace Sys2Proof.Proofs

open Sys2Proof.Machine Sys2Proof.Laws Sys2Proof.Safety Sys2Proof.Claims

/-! ### Characters as bytes (R58) -/

theorem toNat_ofNat_of_ascii {c : Nat} (h : c ≤ 127) : (BitVec.ofNat 8 c).toNat = c :=
  Nat.mod_eq_of_lt (by omega)

/-- An exclusive-or keeps a character ASCII exactly where its mask has bit 7 clear. -/
theorem above_ascii_xor_iff {c : Nat} (h : c ≤ 127) (d : Byte) :
    127 < (BitVec.ofNat 8 c ^^^ d).toNat ↔ d.getLsbD 7 = true := by
  have hc : (BitVec.ofNat 8 c).getLsbD 7 = false := by
    rw [← Bool.not_eq_true, ← aboveAscii, aboveAscii_iff, toNat_ofNat_of_ascii h]
    omega
  rw [← aboveAscii_iff, aboveAscii, BitVec.getLsbD_xor, hc, Bool.false_xor]

theorem presents_ascii_iff {c : Nat} (h : c ≤ 127) (imm : Byte) :
    presents c imm = true ↔ imm = BitVec.ofNat 8 c := by
  simp [presents, h]

theorem presents_above_ascii {c : Nat} (h : 127 < c) (imm : Byte) : presents c imm = aboveAscii imm :=
  if_neg (by omega)

/-- A presented text is the text itself where it is ASCII; otherwise some byte of it is above 127. -/
theorem presented_text_cases {cs : List Nat} {imms : List Byte}
    (h : List.Forall₂ (fun c imm => presents c imm = true) cs imms) :
    ((∀ c ∈ cs, c ≤ 127) ∧ imms = cs.map (BitVec.ofNat 8)) ∨
      ((∃ c ∈ cs, 127 < c) ∧ ∃ imm ∈ imms, 127 < imm.toNat) := by
  induction h with
  | nil => simp
  | @cons c imm cs imms hc _ ih =>
    by_cases hascii : c ≤ 127
    · obtain rfl := (presents_ascii_iff hascii imm).mp hc
      obtain ⟨hcs, rfl⟩ | ⟨hcs, himms⟩ := ih
      · exact .inl ⟨List.forall_mem_cons.mpr ⟨hascii, hcs⟩, rfl⟩
      · exact .inr ⟨List.exists_mem_cons_of_exists hcs, List.exists_mem_cons_of_exists himms⟩
    · have habove : 127 < c := by omega
      rw [presents_above_ascii habove, aboveAscii_iff] at hc
      exact .inr ⟨⟨c, List.mem_cons_self, habove⟩, imm, List.mem_cons_self, hc⟩

/-! ### The Cipher's two commands (R54, R55) -/

theorem effect_ciphEnc_of_above_ascii {cfg : Config} {r : Registers} {imm : Byte} (h : 127 < imm.toNat) :
    effect cfg r (.ciphEnc imm) = (r, .invalidInput, []) :=
  if_pos ((aboveAscii_iff imm).mpr h)

theorem effect_ciphDec_of_above_ascii {cfg : Config} {r : Registers} {imm : Byte}
    (h : 127 < (imm ^^^ cfg.key).toNat) : effect cfg r (.ciphDec imm) = (r, .decodingError, []) :=
  if_pos ((aboveAscii_iff _).mpr h)

theorem exec_ciphEnc_of_ascii {imm : Byte} (h : imm.toNat ≤ 127) (s : State) :
    exec (.ciphEnc imm) s = .next (answer s s.regs .ok [imm ^^^ s.config.key]) := by
  rw [exec_eq, effect_ciphEnc_of_ascii h]
  rfl

theorem exec_ciphEnc_of_above_ascii {imm : Byte} (h : 127 < imm.toNat) (s : State) :
    exec (.ciphEnc imm) s = .next (answer s s.regs .invalidInput []) := by
  rw [exec_eq, effect_ciphEnc_of_above_ascii h]
  rfl

theorem exec_ciphDec_of_ascii {imm : Byte} {s : State} (h : (imm ^^^ s.config.key).toNat ≤ 127) :
    exec (.ciphDec imm) s = .next (answer s s.regs .ok [imm ^^^ s.config.key]) := by
  rw [exec_eq, effect_ciphDec_of_ascii h]
  rfl

theorem exec_ciphDec_of_above_ascii {imm : Byte} {s : State} (h : 127 < (imm ^^^ s.config.key).toNat) :
    exec (.ciphDec imm) s = .next (answer s s.regs .decodingError []) := by
  rw [exec_eq, effect_ciphDec_of_above_ascii h]
  rfl

/-! ### `encrypt` and `decrypt` (R51 to R53) -/

theorem encryptMessage_eq_ok_iff {cfg : Config} {cs : List Nat} {bs : List Byte} :
    encryptMessage cfg cs = .ok bs ↔
      (∀ c ∈ cs, c ≤ 127) ∧ (cs.map fun c => BitVec.ofNat 8 c ^^^ cfg.key) = bs := by
  rw [encryptMessage]
  split <;> simp_all

theorem encryptMessage_of_above_ascii {cs : List Nat} (h : ∃ c ∈ cs, 127 < c) (cfg : Config) :
    encryptMessage cfg cs = .error .invalidInput :=
  if_pos (by simpa using h)

theorem decryptMessage_eq_ok_iff {cfg : Config} {cs : List Nat} {bs : List Byte} :
    decryptMessage cfg bs = .ok cs ↔
      (∀ b ∈ bs, (b ^^^ cfg.key).toNat ≤ 127) ∧ (bs.map fun b => (b ^^^ cfg.key).toNat) = cs := by
  simp only [decryptMessage]
  split <;> simp_all

theorem decryptMessage_of_above_ascii {cfg : Config} {bs : List Byte}
    (h : ∃ b ∈ bs, 127 < (b ^^^ cfg.key).toNat) : decryptMessage cfg bs = .error .decoding :=
  if_pos (by simpa using h)

theorem decryptMessage_of_encryptMessage {cfg : Config} {cs : List Nat} {bs : List Byte}
    (h : encryptMessage cfg cs = .ok bs) : decryptMessage cfg bs = .ok cs := by
  obtain ⟨hcs, rfl⟩ := encryptMessage_eq_ok_iff.mp h
  have hback : ∀ c ∈ cs, (BitVec.ofNat 8 c ^^^ cfg.key ^^^ cfg.key).toNat = c := fun c hc => by
    rw [BitVec.xor_assoc, BitVec.xor_self, BitVec.xor_zero, toNat_ofNat_of_ascii (hcs c hc)]
  refine decryptMessage_eq_ok_iff.mpr ⟨List.forall_mem_map.mpr fun c hc => ?_, ?_⟩
  · rw [hback c hc]
    exact hcs c hc
  · rw [List.map_map]
    exact (List.map_congr_left hback).trans (List.map_id cs)

theorem encryptMessage_of_decryptMessage {cfg : Config} {cs : List Nat} {bs : List Byte}
    (h : decryptMessage cfg bs = .ok cs) : encryptMessage cfg cs = .ok bs := by
  obtain ⟨hbs, rfl⟩ := decryptMessage_eq_ok_iff.mp h
  refine encryptMessage_eq_ok_iff.mpr ⟨List.forall_mem_map.mpr hbs, ?_⟩
  simp [Function.comp_def, -BitVec.toNat_xor]

/-- Only one key takes a text that is not empty to a given ciphertext. -/
theorem key_eq_of_encryptMessage_eq {cfg cfg' : Config} {cs : List Nat} {bs : List Byte} (hne : cs ≠ [])
    (h : encryptMessage cfg cs = .ok bs) (h' : encryptMessage cfg' cs = .ok bs) : cfg.key = cfg'.key := by
  obtain ⟨-, rfl⟩ := encryptMessage_eq_ok_iff.mp h
  obtain ⟨-, heq⟩ := encryptMessage_eq_ok_iff.mp h'
  obtain ⟨c, cs, rfl⟩ := List.exists_cons_of_ne_nil hne
  exact (BitVec.xor_right_inj _).mp (List.cons.inj heq).1.symm

/-! ### The results of the Cipher's programs (R56) -/

theorem programEffect_of_cipher {p : List Instr} (h : ∀ i ∈ p, unitOf i = .cipher) (cfg : Config)
    (r : Registers) : programEffect cfg p r = (r, p.map fun i => respond (effect cfg r i)) :=
  programEffect_of_regs_kept fun i hi => effect_regs_of_cipher (h i hi) cfg r

theorem programEffect_encryptProgram (cfg : Config) (imms : List Byte) (r : Registers) :
    programEffect cfg (encryptProgram imms) r = (r, (encryptProgram imms).map fun i => respond (effect cfg r i)) :=
  programEffect_of_cipher (List.forall_mem_map.mpr fun _ _ => rfl) cfg r

theorem programEffect_decryptProgram (cfg : Config) (bs : List Byte) (r : Registers) :
    programEffect cfg (decryptProgram bs) r = (r, (decryptProgram bs).map fun i => respond (effect cfg r i)) :=
  programEffect_of_cipher (List.forall_mem_map.mpr fun _ _ => rfl) cfg r

/-- One response INVALID_INPUT fails the whole message. -/
theorem encryptResult_of_mem {rs : List Response} {x : Response} (hx : x ∈ rs) (hcode : x.code = .invalidInput) :
    encryptResult rs = .error .invalidInput :=
  if_pos (List.any_eq_true.mpr ⟨x, hx, by simp [hcode]⟩)

/-- One response DECODING_ERROR fails the whole message. -/
theorem decryptResult_of_mem {rs : List Response} {x : Response} (hx : x ∈ rs) (hcode : x.code = .decodingError) :
    decryptResult rs = .error .decoding :=
  if_pos (List.any_eq_true.mpr ⟨x, hx, by simp [hcode]⟩)

theorem encryptResult_of_above_ascii {imms : List Byte} (h : ∃ imm ∈ imms, 127 < imm.toNat) (cfg : Config)
    (r : Registers) :
    encryptResult (programEffect cfg (encryptProgram imms) r).2 = .error .invalidInput := by
  obtain ⟨imm, himm, habove⟩ := h
  rw [programEffect_encryptProgram]
  exact encryptResult_of_mem (List.mem_map_of_mem (List.mem_map_of_mem himm))
    (congrArg (·.2.1) (effect_ciphEnc_of_above_ascii habove))

theorem decryptResult_of_above_ascii {cfg : Config} {bs : List Byte}
    (h : ∃ b ∈ bs, 127 < (b ^^^ cfg.key).toNat) (r : Registers) :
    decryptResult (programEffect cfg (decryptProgram bs) r).2 = .error .decoding := by
  obtain ⟨b, hb, habove⟩ := h
  rw [programEffect_decryptProgram]
  exact decryptResult_of_mem (List.mem_map_of_mem (List.mem_map_of_mem hb))
    (congrArg (·.2.1) (effect_ciphDec_of_above_ascii habove))

theorem encryptResult_encryptProgram {cs : List Nat} {imms : List Byte}
    (h : List.Forall₂ (fun c imm => presents c imm = true) cs imms) (cfg : Config) (r : Registers) :
    encryptResult (programEffect cfg (encryptProgram imms) r).2 = encryptMessage cfg cs := by
  obtain ⟨hcs, rfl⟩ | ⟨hcs, himms⟩ := presented_text_cases h
  · have himms : ∀ b ∈ cs.map (BitVec.ofNat 8), b.toNat ≤ 127 := List.forall_mem_map.mpr fun c hc => by
      rw [toNat_ofNat_of_ascii (hcs c hc)]
      exact hcs c hc
    rw [encryptResult_of_ascii r himms, List.map_map]
    exact (encryptMessage_eq_ok_iff.mpr ⟨hcs, rfl⟩).symm
  · rw [encryptResult_of_above_ascii himms, encryptMessage_of_above_ascii hcs]

theorem decryptResult_decryptProgram (cfg : Config) (bs : List Byte) (r : Registers) :
    decryptResult (programEffect cfg (decryptProgram bs) r).2 = decryptMessage cfg bs := by
  by_cases hbs : ∃ b ∈ bs, 127 < (b ^^^ cfg.key).toNat
  · rw [decryptResult_of_above_ascii hbs, decryptMessage_of_above_ascii hbs]
  · have hascii : ∀ b ∈ bs, (b ^^^ cfg.key).toNat ≤ 127 := by simpa using hbs
    rw [decryptResult_of_ascii r hascii, List.map_map]
    exact (decryptMessage_eq_ok_iff.mpr ⟨hascii, rfl⟩).symm

/-! ### The obligations -/

/-- Settles O32: a character above 127 is presented by the bytes above 127, which CIPH.ENC rejects (R54). -/
theorem characterPort : Obligations.CharacterPort := by
  refine ⟨fun c imm s hc h => ?_, fun c imm s hc h => ?_, fun c hc => ?_, fun c imm hc => ?_, fun c hc hmod => ?_⟩
  · obtain rfl := (presents_ascii_iff hc imm).mp h
    exact ⟨rfl, exec_ciphEnc_of_ascii (by rwa [toNat_ofNat_of_ascii hc]) s⟩
  · rw [presents_above_ascii hc, aboveAscii_iff] at h
    exact exec_ciphEnc_of_above_ascii h s
  · by_cases hascii : c ≤ 127
    · exact (presents_ascii_iff hascii _).mpr rfl
    · rw [presents_above_ascii (by omega), aboveAscii_iff, BitVec.toNat_ofNat]
      omega
  · rw [presents_above_ascii hc, aboveAscii]
  · rw [presents_above_ascii (by omega), ← Bool.not_eq_true, aboveAscii_iff, BitVec.toNat_ofNat]
    omega

/-- Settles O33: both functions are the exclusive-or with the key on ASCII characters (R53). -/
theorem cipherRoundTrip : Obligations.CipherRoundTrip :=
  ⟨fun _ _ _ => decryptMessage_of_encryptMessage, fun _ _ _ => encryptMessage_of_decryptMessage⟩

/-- Settles O34: each character comes out XORed with the difference of the keys, whose bit 7 decides whether it is
ASCII; and only one key encrypts a text that is not empty to this ciphertext. -/
theorem keyMismatchGarbles : Obligations.KeyMismatchGarbles := by
  intro cfg cfg' cs hcs
  have henc := (encryptMessage_eq_ok_iff (cfg := cfg)).mpr ⟨hcs, rfl⟩
  refine ⟨_, henc, fun hne hbit => ?_, fun hbit => ?_, fun hne hdec => ?_⟩
  · obtain ⟨c, hc⟩ := List.exists_mem_of_ne_nil cs hne
    refine decryptMessage_of_above_ascii ⟨_, List.mem_map_of_mem hc, ?_⟩
    rw [BitVec.xor_assoc]
    exact (above_ascii_xor_iff (hcs c hc) _).mpr hbit
  · refine decryptMessage_eq_ok_iff.mpr ⟨List.forall_mem_map.mpr fun c hc => ?_, ?_⟩
    · have hclear := hbit.resolve_left (List.ne_nil_of_mem hc)
      rw [BitVec.xor_assoc, ← Nat.not_lt, above_ascii_xor_iff (hcs c hc), hclear]
      exact Bool.false_ne_true
    · simp only [List.map_map, Function.comp_def, BitVec.xor_assoc]
  · exact key_eq_of_encryptMessage_eq hne henc (encryptMessage_of_decryptMessage hdec)

/-- Settles O35: the Cipher keeps the registers (R19), and its commands are the message-level functions character by
character (R56). -/
theorem cipherMessagesCompose : Obligations.CipherMessagesCompose := by
  refine ⟨fun cs imms s h => ⟨_, runProgram_eq _ s, ?_, ?_⟩, fun bs s => ⟨_, runProgram_eq _ s, ?_, ?_⟩⟩
  · rw [afterProgram_regs, programEffect_encryptProgram]
  · rw [afterProgram_transcript, encryptResult_encryptProgram h]
  · rw [afterProgram_regs, programEffect_decryptProgram]
  · rw [afterProgram_transcript, decryptResult_decryptProgram]

/-- Settles O30: the row of the opcode map, and the two ends of CIPH.ENC (R54). -/
theorem ciphEncEncrypts : Obligations.CiphEncEncrypts :=
  ⟨decode_append _, fun _ s h => exec_ciphEnc_of_ascii h s, fun _ s h => exec_ciphEnc_of_above_ascii h s⟩

/-- Settles O31: the row of the opcode map, and the two ends of CIPH.DEC (R55). -/
theorem ciphDecDecrypts : Obligations.CiphDecDecrypts :=
  ⟨decode_append _, fun _ _ => exec_ciphDec_of_ascii, fun _ _ => exec_ciphDec_of_above_ascii⟩

end Sys2Proof.Proofs

namespace Sys2Proof.Proofs

open Sys2Proof.Machine Sys2Proof.Laws Sys2Proof.Safety Sys2Proof.Claims

/-! ### The polarity after a run of bits (R62, R65) -/

/-- One more 1 bit before a run of bits is one more flip. -/
theorem flipIf_parity_succ (n : Nat) (p : Polarity) :
    flipIf ((n + 1) % 2 == 1) p = flipIf (n % 2 == 1) p.flip := by
  obtain h | h := Nat.mod_two_eq_zero_or_one n <;> simp [Nat.add_mod, h, flipIf]

theorem flipIf_oddOnes_cons (bit : Bool) (bits : List Bool) (p : Polarity) :
    flipIf (oddOnes (bit :: bits)) p = flipIf (oddOnes bits) (flipIf bit p) := by
  cases bit with
  | false => simp [oddOnes, flipIf]
  | true =>
    rw [oddOnes, List.count_cons_self, flipIf_parity_succ]
    rfl

/-! ### The symbol of a bit, and the symbols of a run of bits (R59, R62) -/

/-- The symbol of a bit sent from polarity `p` (R59): Z for a 0 bit, and the mark of the side `p` for a 1 bit. -/
def bitSymbol (p : Polarity) (bit : Bool) : Symbol := if bit then p.mark else .zero

theorem encodeBits_cons (bit : Bool) (bits : List Bool) (p : Polarity) :
    encodeBits (bit :: bits) p =
      (bitSymbol p bit :: (encodeBits bits (flipIf bit p)).1, (encodeBits bits (flipIf bit p)).2) := by
  cases bit <;> rfl

theorem wireFrom_cons (bit : Bool) (bits : List Bool) (p : Polarity) :
    wireFrom (bit :: bits) p = (bitSymbol p bit).wire :: wireFrom bits (flipIf bit p) := by
  rw [wireFrom, encodeBits_cons, List.map_cons, wireFrom]

theorem wire_bitSymbol (p : Polarity) (bit : Bool) :
    (bitSymbol p bit).wire = if bit = false then 0x01#8 else if p = .pos then 0x02#8 else 0x00#8 := by
  cases bit <;> cases p <;> rfl

/-- The mark that follows `n` marks of a run sent from POS. -/
theorem mark_flipIf_parity (n : Nat) :
    (flipIf (n % 2 == 1) .pos).mark = if n % 2 = 0 then .positiveMark else .negativeMark := by
  obtain h | h := Nat.mod_two_eq_zero_or_one n <;> rw [h] <;> rfl

/-- The polarity after a run of bits is flipped by its parity (R62). -/
theorem encodeBits_polarity (bits : List Bool) (p : Polarity) :
    (encodeBits bits p).2 = flipIf (oddOnes bits) p := by
  induction bits generalizing p with
  | nil => rfl
  | cons bit bits ih => rw [encodeBits_cons, flipIf_oddOnes_cons, ← ih]

/-- Each symbol is that of its bit, sent from the polarity flipped by the parity of the bits before it. -/
theorem encodeBits_getElem? (bits : List Bool) (p : Polarity) (j : Nat) :
    (encodeBits bits p).1[j]? = bits[j]?.map (bitSymbol (flipIf (oddOnes (bits.take j)) p)) := by
  induction bits generalizing p j with
  | nil => rfl
  | cons bit bits ih =>
    rw [encodeBits_cons]
    cases j with
    | zero => rfl
    | succ j => rw [List.getElem?_cons_succ, List.getElem?_cons_succ, List.take_succ_cons,
        flipIf_oddOnes_cons, ih]

theorem filter_marks_bitSymbol_cons (p : Polarity) (bit : Bool) (xs : List Symbol) :
    (bitSymbol p bit :: xs).filter (fun x => x != .zero) =
      (if bit then [p.mark] else []) ++ xs.filter (fun x => x != .zero) := by
  cases bit <;> cases p <;> rfl

/-- The marks of a run of bits, one for each 1 bit, alternate from the polarity held (R62). -/
theorem encodeBits_marks (bits : List Bool) (p : Polarity) :
    (encodeBits bits p).1.filter (fun x => x != .zero) =
      (List.range (bits.count true)).map fun k => (flipIf (k % 2 == 1) p).mark := by
  induction bits generalizing p with
  | nil => rfl
  | cons bit bits ih =>
    rw [encodeBits_cons, filter_marks_bitSymbol_cons, ih]
    cases bit with
    | false => rw [List.count_cons_of_ne (by decide)]; rfl
    | true =>
      rw [List.count_cons_self, List.range_succ_eq_map, List.map_cons, List.map_map]
      refine congrArg (p.mark :: ·) (List.map_congr_left fun k _ => ?_)
      exact congrArg Polarity.mark (flipIf_parity_succ k p).symm

/-! ### The bits of a message (R60) -/

@[simp] theorem messageBits_length (bs : List Byte) : (messageBits bs).length = 8 * bs.length := by
  induction bs with
  | nil => rfl
  | cons b bs ih => rw [messageBits_cons, List.length_append, ih, byteBits_length, List.length_cons]; omega

/-- Bit `8k + i` of a message is bit `i` of byte `k`. -/
theorem messageBits_getElem? {bs : List Byte} {k i : Nat} {b : Byte} (hi : i < 8) (hk : bs[k]? = some b) :
    (messageBits bs)[8 * k + i]? = some (b.getLsbD i) := by
  induction bs generalizing k with
  | nil => cases hk
  | cons a bs ih =>
    rw [messageBits_cons]
    cases k with
    | zero =>
      obtain rfl : a = b := Option.some.inj hk
      rw [Nat.mul_zero, Nat.zero_add, List.getElem?_append_left (by simpa using hi), byteBits_get hi]
    | succ k =>
      rw [List.getElem?_append_right (by simp; omega), byteBits_length,
        show 8 * (k + 1) + i - 8 = 8 * k + i by omega]
      exact ih hk

/-! ### ENC.BYTE and its loop (R64, R65) -/

/-- The bits of a byte below bit `i`. -/
theorem take_byteBits (imm : Byte) {i : Nat} (h : i ≤ 8) :
    (byteBits imm).take i = (List.range i).map fun j => imm.getLsbD j := by
  rw [show byteBits imm = (List.range 8).map fun j => imm.getLsbD j from rfl, ← List.map_take, List.take_range,
    Nat.min_eq_left h]

theorem oddOnes_take_byteBits (imm : Byte) {i : Nat} (h : i ≤ 8) :
    oddOnes ((byteBits imm).take i) = (onesBelow imm i % 2 == 1) := by
  rw [oddOnes, take_byteBits imm h, List.count_eq_countP, List.countP_map, onesBelow]
  simp [Function.comp_def]

/-- The wire byte of bit `i` of a byte sent from polarity `p` (R62). -/
theorem wireFrom_byteBits_getElem? (imm : Byte) (p : Polarity) {i : Nat} (hi : i < 8) :
    (wireFrom (byteBits imm) p)[i]? = some
      (if imm.getLsbD i = false then 0x01#8
        else if flipIf (onesBelow imm i % 2 == 1) p = .pos then 0x02#8 else 0x00#8) := by
  rw [← wire_bitSymbol, ← oddOnes_take_byteBits imm hi.le, wireFrom, List.getElem?_map, encodeBits_getElem?,
    byteBits_get hi, Option.map_some, Option.map_some]

/-- A turn of the loop sends the symbol of its bit, and flips the polarity for a 1 bit. -/
theorem encByteTurn_eq (imm : Byte) (p : Polarity) (out : List Byte) (i : Nat) :
    encByteTurn imm (p, out) i =
      (flipIf (imm.getLsbD i) p, out ++ [(bitSymbol p (imm.getLsbD i)).wire]) := by
  unfold encByteTurn
  cases imm.getLsbD i <;> cases p <;> rfl

/-- The loop of R64 over some bits of a byte is `encodeBits`, its wire bytes put after those so far. -/
theorem foldl_encByteTurn (imm : Byte) (is : List Nat) (p : Polarity) (out : List Byte) :
    is.foldl (encByteTurn imm) (p, out) =
      ((encodeBits (is.map fun i => imm.getLsbD i) p).2, out ++ wireFrom (is.map fun i => imm.getLsbD i) p) := by
  induction is generalizing p out with
  | nil => simp [encodeBits, wireFrom]
  | cons i is ih =>
    rw [List.foldl_cons, encByteTurn_eq, ih, List.map_cons, encodeBits_cons, wireFrom_cons, List.append_assoc,
      List.singleton_append]

theorem encByteLoop_eq (imm : Byte) (p : Polarity) :
    encByteLoop imm p = ((encodeBits (byteBits imm) p).2, wireFrom (byteBits imm) p) :=
  foldl_encByteTurn imm [0, 1, 2, 3, 4, 5, 6, 7] p []

/-- ENC.BYTE sends the bits of its operand from the polarity held, and holds the one after them. -/
theorem effect_encByte (cfg : Config) (r : Registers) (imm : Byte) :
    effect cfg r (.encByte imm) =
      ({ r with ePol := (encodeBits (byteBits imm) r.ePol).2 }, .ok, wireFrom (byteBits imm) r.ePol) := rfl

/-- Only commands of the Encoder write `E_POL` (R14). -/
theorem effect_ePol_of_ne_encoder {i : Instr} (h : unitOf i ≠ .encoder) (cfg : Config) (r : Registers) :
    (effect cfg r i).1.ePol = r.ePol :=
  (agreeOn_effect_of_ne (u := .encoder) h.symm cfg r).symm

/-! ### ENCODE.MSG (R66) -/

theorem programEffect_encBytes_ePol (cfg : Config) (bs : List Byte) (r : Registers) :
    (programEffect cfg (bs.map .encByte) r).1.ePol = flipIf (oddOnes (messageBits bs)) r.ePol := by
  rw [← encodeBits_polarity]
  induction bs generalizing r with
  | nil => rfl
  | cons b bs ih => rw [List.map_cons, programEffect, ih, messageBits_cons, encodeBits_append, effect_encByte]

theorem flatMap_outcomeOf (rs : List Response) :
    (rs.map outcomeOf).flatMap (fun o => o.2) = responseData rs := by
  rw [List.flatMap_map]
  rfl

/-! ### A host that keeps the Encoder's duties (R91, R92) -/

theorem bytesEncodedFor_cons_encByte (m k : Nat) (b : Byte) (p : List Tagged) :
    bytesEncodedFor m ((k, .encByte b) :: p) = (if k = m then [b] else []) ++ bytesEncodedFor m p := by
  by_cases hk : k = m <;> simp [bytesEncodedFor, hk]

theorem bytesEncodedFor_cons_encStart (m k : Nat) (p : List Tagged) :
    bytesEncodedFor m ((k, .encStart) :: p) = bytesEncodedFor m p := rfl

theorem wireBytesFor_cons_encByte (m k : Nat) (b : Byte) (p : List Tagged) (x : Response)
    (rs : List Response) :
    wireBytesFor m ((k, .encByte b) :: p) (x :: rs) =
      (if k = m then x.data else []) ++ wireBytesFor m p rs := rfl

/-- The duty at an ENC.BYTE: it goes on with the message in progress, or begins one that is new. -/
theorem encoderDuty_cons_encByte {seen : List Nat} {cur : Option Nat} {k : Nat} {b : Byte} {p : List Tagged}
    (h : encoderDuty seen cur ((k, .encByte b) :: p) = true) :
    (cur = some k ∨ cur = none ∧ k ∉ seen) ∧ encoderDuty (k :: seen) (some k) p = true := by
  simpa [encoderDuty] using h

/-- A message that is not in progress any more gets no further byte. -/
theorem bytesEncodedFor_of_finished {seen : List Nat} {cur : Option Nat} {p : List Tagged} {m : Nat}
    (hduty : encoderDuty seen cur p = true) (hseen : m ∈ seen) (hcur : cur ≠ some m) :
    bytesEncodedFor m p = [] := by
  induction p generalizing seen cur with
  | nil => rfl
  | cons t p ih =>
    obtain ⟨k, i⟩ := t
    cases i with
    | encStart => exact ih (cur := none) hduty hseen nofun
    | encByte b =>
      obtain ⟨hk, hduty⟩ := encoderDuty_cons_encByte hduty
      have hkm : k ≠ m := by
        rintro rfl
        obtain rfl | ⟨-, hnew⟩ := hk
        · exact hcur rfl
        · exact hnew hseen
      rw [bytesEncodedFor_cons_encByte, if_neg hkm, List.nil_append]
      exact ih hduty (List.mem_cons_of_mem k hseen) (by simpa using hkm)
    | ciphEnc imm | ciphDec imm | decStart | decSym imm | decEnd => exact ih (cur := cur) hduty hseen hcur

/-- Of two runs of bits, one after the other, the second is sent from the polarity that the first leaves. -/
theorem wireFrom_append (as bits : List Bool) (p : Polarity) :
    wireFrom (as ++ bits) p = wireFrom as p ++ wireFrom bits (encodeBits as p).2 := by
  simp [wireFrom, encodeBits_append]

/-- The responses carry, for each message, the wire bytes of its bytes, sent from the polarity held for the message in
progress and from POS for a message still to begin: between messages `E_POL` is POS. -/
theorem wireBytesFor_programEffect (cfg : Config) (m : Nat) {seen : List Nat} {cur : Option Nat} {p : List Tagged}
    {r : Registers} (hduty : encoderDuty seen cur p = true) (hseen : cur = some m → m ∈ seen)
    (hpos : cur = none → r.ePol = .pos) :
    wireBytesFor m p (programEffect cfg (p.map fun c => c.2) r).2 =
      wireFrom (messageBits (bytesEncodedFor m p)) (if cur = some m then r.ePol else .pos) := by
  induction p generalizing seen cur r with
  | nil => rfl
  | cons t p ih =>
    obtain ⟨k, i⟩ := t
    have hkeep : unitOf i ≠ .encoder → (effect cfg r i).1.ePol = r.ePol :=
      fun hi => effect_ePol_of_ne_encoder hi cfg r
    cases i with
    | encStart =>
      refine (ih (cur := none) hduty nofun (fun _ => rfl)).trans ?_
      rw [bytesEncodedFor_cons_encStart]
      by_cases hm : cur = some m
      · rw [bytesEncodedFor_of_finished (cur := none) hduty (hseen hm) nofun]
        rfl
      · rw [if_neg hm]
        rfl
    | encByte b =>
      obtain ⟨hk, hduty⟩ := encoderDuty_cons_encByte hduty
      rw [List.map_cons, programEffect, wireBytesFor_cons_encByte, bytesEncodedFor_cons_encByte,
        ih hduty (fun h => by cases h; exact List.mem_cons_self) nofun]
      by_cases hkm : k = m
      · subst hkm
        have hpol : (if cur = some k then r.ePol else .pos) = r.ePol := by
          obtain rfl | ⟨rfl, -⟩ := hk
          · exact if_pos rfl
          · exact (hpos rfl).symm
        rw [hpol]
        simp only [if_true, List.singleton_append, messageBits_cons, wireFrom_append]
        rfl
      · have hcur : cur ≠ some m := by
          obtain rfl | ⟨rfl, -⟩ := hk <;> simp [hkm]
        simp [hkm, hcur]
    | ciphEnc imm | ciphDec imm | decStart | decSym imm | decEnd =>
      have hkeep := hkeep (by simp [unitOf])
      rw [← hkeep]
      exact ih (cur := cur) hduty hseen fun hnone => hkeep.trans (hpos hnone)

/-! ### The obligations -/

/-- Settles O43, by induction over the tagged commands (`wireBytesFor_programEffect`), from the start, where no message is
in progress. -/
theorem dutifulHostEncodesEachMessage : Obligations.DutifulHostEncodesEachMessage := by
  intro p s hpos hduty
  refine ⟨_, runProgram_eq _ s, fun m => ?_⟩
  rw [afterProgram_transcript, encodeToWire_eq]
  exact wireBytesFor_programEffect s.config m hduty nofun fun _ => hpos

/-- Settles O42: words of other units and illegal words leave the Encoder's part of the run as it is (R35), which is that
of ENCODE.MSG alone. -/
theorem encodeMessageComposes : Obligations.EncodeMessageComposes := by
  intro bs ws s hws
  obtain ⟨hpol, hout⟩ := runEffect_filter_wordOfUnit .encoder s.config ws (agreeOn_refl .encoder s.regs)
  rw [hws, runEffect_map_encode] at hpol hout
  refine ⟨_, runWords_eq ws s, ?_, ?_⟩
  · rw [transcript_eq, List.reverse_reverse, hout, flatMap_outcomeOf, responseData_encodeProgram]
  · exact hpol.trans (programEffect_encBytes_ePol s.config bs _)

/-- Settles O41: the marks, the symbols and the polarity of the run of the message's bits from POS. -/
theorem encodedMarksAlternate : Obligations.EncodedMarksAlternate := by
  refine ⟨fun bs => ?_, fun bs j bit hbit => ?_, fun bs => ?_⟩
  · simp only [encodeMessage_eq, encodeBits_marks, mark_flipIf_parity]
  · rw [encodeMessage_eq, encodeBits_getElem?, hbit, Option.map_some, bitSymbol, oddOnes, mark_flipIf_parity]
    cases bit <;> rfl
  · rw [← List.foldl_flatMap, foldl_encodeStep, encodeBits_polarity, messageBits]

/-- Settles O37: the loop of the rule runs over the bits of the operand as the Encoder does. -/
theorem encByteRunsItsLoop : Obligations.EncByteRunsItsLoop := by
  refine ⟨decode_append _, fun imm s => ?_⟩
  rw [exec_eq, effect_encByte, encByteLoop_eq]
  rfl

/-- Settles O38: the symbol of bit `i` is sent from the polarity flipped by the parity of the bits below it. -/
theorem encByteWireBytes : Obligations.EncByteWireBytes := by
  intro imm s
  refine ⟨_, _, exec_eq (.encByte imm) s, rfl, rfl, ?_, fun i hi => ?_⟩
  · rw [effect_encByte, wireFrom, List.length_map, encodeBits_length, byteBits_length]
  · exact wireFrom_byteBits_getElem? imm s.regs.ePol hi

/-- Settles O39: the polarity after the eight bits of the operand. -/
theorem encBytePolarity : Obligations.EncBytePolarity := by
  intro imm s
  refine ⟨_, exec_eq (.encByte imm) s, ?_⟩
  rw [← oddOnes_take_byteBits imm le_rfl]
  exact encodeBits_polarity (byteBits imm) s.regs.ePol

/-- Settles O40: each symbol stands for its bit, and the message has eight bits for each byte. -/
theorem encodeLengthAndOrder : Obligations.EncodeLengthAndOrder := by
  refine fun bs => ⟨?_, fun k i b hi hk => ?_⟩
  · rw [encodeMessage_eq, encodeBits_length, messageBits_length]
  · rw [← List.getElem?_map, encodeMessage_eq, encodeBits_bits, messageBits_getElem? hi hk]

/-- Settles O36: the row of the opcode map, its effect, and the step of its opcode with an operand (R42). -/
theorem encStartSetsPositive : Obligations.EncStartSetsPositive := by
  have hdec : ∀ imm : Byte, imm ≠ 0x00#8 → decode (0x10#8 ++ imm) = .error (.reservedOperand 0x10#8 imm) :=
    fun imm himm => (decode_append _ imm).trans (decodeFields_reservedOperand (by decide) himm)
  exact ⟨decode_encode .encStart, exec_eq .encStart, hdec,
    fun imm s rest himm hs => step_of_decode_error (hdec imm himm) hs, rfl⟩

end Sys2Proof.Proofs

namespace Sys2Proof.Proofs

open Sys2Proof.Machine Sys2Proof.Laws Sys2Proof.Safety Sys2Proof.Claims

/-! ### What decodes is the symbols of some bits (R70) -/

/-- An accepted symbol is that of its bit, and leaves the polarity that the bit leaves. -/
theorem eq_wire_of_checkSymbol_ok {p q : Polarity} {x : Byte} {bit : Bool}
    (h : checkSymbol p x = .ok (bit, q)) : x = (bitSymbol p bit).wire ∧ q = flipIf bit p := by
  rcases symbolOfWire_cases x with ⟨rfl, -⟩ | ⟨rfl, -⟩ | ⟨rfl, -⟩ | ⟨hx, -⟩
  · cases p <;> cases h <;> exact ⟨rfl, rfl⟩
  · cases p <;> cases h; exact ⟨rfl, rfl⟩
  · cases p <;> cases h; exact ⟨rfl, rfl⟩
  · rw [checkSymbol_unknown p hx] at h
    cases h

/-- Wire bytes that are accepted are those of some bits, sent from the polarity held. -/
theorem exists_wireFrom_of_polarityAfter_ok {p q : Polarity} {xs : List Byte}
    (h : polarityAfter p xs = .ok q) : ∃ bits, xs = wireFrom bits p := by
  induction xs generalizing p with
  | nil => exact ⟨[], rfl⟩
  | cons x xs ih =>
    cases hx : checkSymbol p x with
    | error v =>
      rw [polarityAfter_cons_of_error hx] at h
      cases h
    | ok a =>
      obtain ⟨bit, p'⟩ := a
      rw [polarityAfter_cons_of_ok hx] at h
      obtain ⟨rfl, rfl⟩ := eq_wire_of_checkSymbol_ok hx
      obtain ⟨bits, rfl⟩ := ih h
      exact ⟨bit :: bits, (wireFrom_cons bit bits p).symm⟩

/-- Any eight bits are those of a byte. -/
theorem exists_byteBits_eq {bits : List Bool} (h : bits.length = 8) : ∃ b, byteBits b = bits := by
  refine ⟨(BitVec.ofBoolListLE bits).cast h, List.ext_getElem? fun i => ?_⟩
  by_cases hi : i < 8
  · rw [byteBits_get hi, BitVec.getLsbD_cast, BitVec.getLsbD_ofBoolListLE, List.getD_eq_getElem?_getD,
      List.getElem?_eq_getElem (h ▸ hi), Option.getD_some]
  · rw [List.getElem?_eq_none (by simpa using hi), List.getElem?_eq_none (by omega)]

/-- Bits are those of some bytes and fewer than eight more. -/
theorem exists_messageBits_append (bits : List Bool) :
    ∃ bs tail, tail.length < 8 ∧ bits = messageBits bs ++ tail := by
  induction bits using List.reverseRecOn with
  | nil => exact ⟨[], [], by decide, rfl⟩
  | append_singleton bits bit ih =>
    obtain ⟨bs, tail, htail, rfl⟩ := ih
    by_cases hfull : tail.length = 7
    · obtain ⟨b, hb⟩ := exists_byteBits_eq (bits := tail ++ [bit]) (by simp [hfull])
      exact ⟨bs ++ [b], [], by decide, by simp [messageBits, hb]⟩
    · exact ⟨bs, tail ++ [bit], by simp; omega, by simp⟩

@[simp] theorem wireFrom_length (bits : List Bool) (p : Polarity) : (wireFrom bits p).length = bits.length := by
  rw [wireFrom, List.length_map, encodeBits_length]

/-! ### The decoding loop on bytes and a trailing partial byte (R67, R68) -/

/-- The symbols of whole bytes leave the loop at the start of a byte, with the bytes put out. -/
theorem decodeLoop_wireFrom_messageBits_append (bs : List Byte) (tail : List Bool) (p : Polarity)
    (out : List Byte) :
    ∃ q, decodeLoop (wireFrom (messageBits bs ++ tail) p) p 0x00#8 0 out =
      decodeLoop (wireFrom tail q) q 0x00#8 0 (out ++ bs) := by
  induction bs generalizing p out with
  | nil => exact ⟨p, by simp [messageBits]⟩
  | cons b bs ih =>
    obtain ⟨q, hq⟩ := decodeLoop_wireFrom_byte b (messageBits bs ++ tail) p out
    rw [messageBits_cons, List.append_assoc, hq, List.append_cons out b bs]
    exact ih q (out ++ [b])

/-- Symbols that do not fill the byte put nothing out and are counted. -/
theorem decodeLoop_wireFrom_partial {bits : List Bool} {cnt : Nat} (h : cnt + bits.length < 8) (p : Polarity)
    (acc : Byte) (out : List Byte) :
    decodeLoop (wireFrom bits p) p acc cnt out = .ok (out, cnt + bits.length) := by
  induction bits generalizing p acc cnt with
  | nil => rfl
  | cons bit bits ih =>
    rw [List.length_cons] at h
    rw [decodeLoop_wireFrom_cons, if_neg (by omega), ih (by omega), List.length_cons, Nat.add_right_comm,
      Nat.add_assoc]

/-- The result of `decode` on the symbols of whole bytes and fewer than eight more (R68). -/
theorem decodeMessage_wireFrom {tail : List Bool} (h : tail.length < 8) (cfg : Config) (bs : List Byte) :
    decodeMessage cfg (wireFrom (messageBits bs ++ tail) .pos) =
      if tail.length ≠ 0 ∧ cfg.rejectTruncated = true then .error .truncated else .ok bs := by
  obtain ⟨q, hq⟩ := decodeLoop_wireFrom_messageBits_append bs tail .pos []
  rw [decodeMessage, hq, decodeLoop_wireFrom_partial (by omega)]
  simp only [Nat.zero_add, List.nil_append]

/-- A message either has a violation, which is reported under every configuration, or is the symbols of whole bytes and
fewer than eight more. -/
theorem decodeMessage_cases (xs : List Byte) :
    (∃ v, ∀ cfg, decodeMessage cfg xs = .error (.protocolViolation v)) ∨
      ∃ bs tail, tail.length < 8 ∧ xs = wireFrom (messageBits bs ++ tail) .pos := by
  cases h : polarityAfter .pos xs with
  | error v => exact .inl ⟨v, fun cfg => (decodeMessage_eq_violation_iff cfg xs v).mpr h⟩
  | ok q =>
    obtain ⟨bits, rfl⟩ := exists_wireFrom_of_polarityAfter_ok h
    obtain ⟨bs, tail, htail, rfl⟩ := exists_messageBits_append bits
    exact .inr ⟨bs, tail, htail, rfl⟩

/-- The wire bytes of a message stand first among those of its bits and any bits after them. -/
theorem encodeToWire_eq_take (bs : List Byte) (tail : List Bool) :
    encodeToWire bs = (wireFrom (messageBits bs ++ tail) .pos).take (8 * bs.length) := by
  rw [encodeToWire_eq, wireFrom_append, List.take_left' (by simp)]

/-! ### The commands of the Decoder (R71 to R73) -/

theorem decode_bareOpcode_reserved {op imm : Byte} (h : op ∈ bareOpcodes) (himm : imm ≠ 0x00#8) :
    decode (op ++ imm) = .error (.reservedOperand op imm) :=
  (decode_append op imm).trans (decodeFields_reservedOperand h himm)

/-- The check accepts the symbols that R72 lists, with their bit. -/
theorem checkSymbol_of_mem_acceptedSymbols {x : Byte} {p q : Polarity} {bit : Byte}
    (h : (x, p, q, bit) ∈ acceptedSymbols) : ∃ b, bitByte b = bit ∧ checkSymbol p x = .ok (b, q) := by
  have hall : ∀ a ∈ acceptedSymbols, ∃ b, bitByte b = a.2.2.2 ∧ checkSymbol a.2.1 a.1 = .ok (b, a.2.2.1) := by
    decide
  exact hall _ h

theorem checkSymbol_of_mem_misplacedMarks {x : Byte} {p : Polarity} {v : Violation}
    (h : (x, p, v) ∈ misplacedMarks) : checkSymbol p x = .error v := by
  have hall : ∀ a ∈ misplacedMarks, checkSymbol a.2.1 a.1 = .error a.2.2 := by decide
  exact hall _ h

theorem effect_decSym_ignored {r : Registers} (h : r.dErr ≠ none) (cfg : Config) (x : Byte) :
    effect cfg r (.decSym x) = (r, .ignoredAfterError, []) := if_neg h

theorem exec_decSym_of_error {s : State} {x : Byte} {v : Violation} (he : s.regs.dErr = none)
    (h : checkSymbol s.regs.dPol x = .error v) :
    exec (.decSym x) s = .next (answer s { s.regs with dErr := some v } v.code []) := by
  rw [exec_eq, effect_decSym_of_error s.config he h]
  rfl

theorem exec_decEnd (s : State) :
    exec .decEnd s = .next (answer s (startOfDecoding s.regs) (endCode s.config s.regs) []) := rfl

/-- Commands of the Decoder alone keep `E_POL` (R14). -/
theorem programEffect_ePol_of_decoder {p : List Instr} (h : ∀ i ∈ p, unitOf i = .decoder) (cfg : Config)
    (r : Registers) : (programEffect cfg p r).1.ePol = r.ePol := by
  induction p generalizing r with
  | nil => rfl
  | cons i p ih =>
    obtain ⟨hi, hp⟩ := List.forall_mem_cons.mp h
    rw [programEffect, ih hp, effect_ePol_of_decoder hi]

/-! ### A message from a decoder at its start (R73) -/

theorem decodeLoop_eq_of_start (cfg : Config) (xs : List Byte) {r : Registers} (h : atStartOfDecoding r) :
    decodeLoop xs .pos 0x00#8 0 [] = loopOutcome [] (programEffect cfg (xs.map .decSym) r) := by
  obtain ⟨hpol, hacc, hcnt, herr⟩ := h
  simpa [hpol, hacc, hcnt] using decodeLoop_eq cfg xs herr []

/-- What a run shows of the loop depends on the decoder's registers alone. -/
theorem loopOutcome_of_agreeOn {r r' : Registers} (h : AgreeOn .decoder r r') (out : List Byte)
    (rs : List Response) : loopOutcome out (r, rs) = loopOutcome out (r', rs) := by
  obtain ⟨-, -, hcnt, herr⟩ := h
  simp only [loopOutcome, hcnt, herr]

theorem agreeOn_decoderStart {r r' : Registers} (h : atStartOfDecoding r) :
    AgreeOn .decoder r (decoderStart r') := h

@[simp] theorem programEffect_length (cfg : Config) (p : List Instr) (r : Registers) :
    (programEffect cfg p r).2.length = p.length := by
  rw [← runEffect_map_encode, runEffect_length, List.length_map]

/-! ### A host that keeps the Decoder's duties (R91, R92) -/

theorem symbolsSentFor_cons_decSym (m k : Nat) (x : Byte) (p : List Tagged) :
    symbolsSentFor m ((k, .decSym x) :: p) = (if k = m then [x] else []) ++ symbolsSentFor m p := by
  by_cases hk : k = m <;> simp [symbolsSentFor, hk]

theorem decodeResponsesFor_cons (m : Nat) (t : Tagged) (p : List Tagged) (x : Response) (rs : List Response) :
    decodeResponsesFor m (t :: p) (x :: rs) =
      if decodesFor m t = true then x :: decodeResponsesFor m p rs else decodeResponsesFor m p rs := by
  simp only [decodeResponsesFor, List.zip_cons_cons, List.filter_cons]
  split <;> rfl

theorem decodeResponsesFor_append (m : Nat) {p q : List Tagged} {rs ts : List Response}
    (h : p.length = rs.length) :
    decodeResponsesFor m (p ++ q) (rs ++ ts) = decodeResponsesFor m p rs ++ decodeResponsesFor m q ts := by
  simp [decodeResponsesFor, List.zip_append h]

theorem decodeResponsesFor_decEnd (m : Nat) (x : Response) :
    decodeResponsesFor m [(m, .decEnd)] [x] = [x] := by
  simp [decodeResponsesFor, decodesFor]

/-- The duty at a DEC.SYM: it goes on with the message in progress, or begins one that is new. -/
theorem decoderDuty_cons_decSym {seen : List Nat} {cur : Option Nat} {k : Nat} {x : Byte} {p : List Tagged}
    (h : decoderDuty seen cur ((k, .decSym x) :: p) = true) :
    (cur = some k ∨ cur = none ∧ k ∉ seen) ∧ decoderDuty (k :: seen) (some k) p = true := by
  simpa [decoderDuty] using h

/-- The duty at a DEC.END: it ends the message in progress, or is all of a new one. -/
theorem decoderDuty_cons_decEnd {seen : List Nat} {cur : Option Nat} {k : Nat} {p : List Tagged}
    (h : decoderDuty seen cur ((k, .decEnd) :: p) = true) :
    (cur = some k ∨ cur = none ∧ k ∉ seen) ∧ decoderDuty (k :: seen) none p = true := by
  simpa [decoderDuty] using h

/-- A message begun that is still to be ended is the message in progress. -/
theorem eq_some_of_decoderDuty {seen : List Nat} {cur : Option Nat} {p : List Tagged} {m : Nat}
    (hduty : decoderDuty seen cur (p ++ [(m, .decEnd)]) = true) (hseen : m ∈ seen) : cur = some m := by
  induction p generalizing seen cur with
  | nil => exact (decoderDuty_cons_decEnd hduty).1.resolve_right fun h => h.2 hseen
  | cons t p ih =>
    obtain ⟨k, i⟩ := t
    cases i with
    | decStart => cases ih (cur := none) hduty hseen
    | decSym x =>
      obtain ⟨hk, hduty⟩ := decoderDuty_cons_decSym hduty
      obtain rfl : k = m := Option.some.inj (ih hduty (List.mem_cons_of_mem k hseen))
      exact hk.resolve_right fun h => h.2 hseen
    | decEnd => cases ih (decoderDuty_cons_decEnd hduty).2 (List.mem_cons_of_mem k hseen)
    | ciphEnc imm | ciphDec imm | encStart | encByte imm => exact ih (cur := cur) hduty hseen

/-- Up to the DEC.END of message `m`, a decoder `r` that serves all the messages goes along with a decoder `r'` that is
given the symbols of `m` alone: they agree while `m` is in progress and between messages, and `r'` waits at the start of
a message until `m` begins. -/
theorem programEffect_symbolsSentFor (cfg : Config) {m : Nat} {seen : List Nat} {cur : Option Nat}
    {p : List Tagged} {r r' : Registers} (hduty : decoderDuty seen cur (p ++ [(m, .decEnd)]) = true)
    (hseen : cur = some m → m ∈ seen) (hagree : cur = some m ∨ cur = none → AgreeOn .decoder r' r)
    (hstart : cur ≠ some m → atStartOfDecoding r') :
    AgreeOn .decoder (programEffect cfg ((symbolsSentFor m p).map .decSym) r').1
        (programEffect cfg (p.map fun c => c.2) r).1 ∧
      responseData (decodeResponsesFor m p (programEffect cfg (p.map fun c => c.2) r).2) =
        responseData (programEffect cfg ((symbolsSentFor m p).map .decSym) r').2 := by
  induction p generalizing seen cur r r' with
  | nil => exact ⟨hagree ((decoderDuty_cons_decEnd hduty).1.imp_right And.left), rfl⟩
  | cons t p ih =>
    obtain ⟨k, i⟩ := t
    rw [List.map_cons, programEffect, decodeResponsesFor_cons]
    cases i with
    | decStart =>
      have hcur : cur ≠ some m := fun h => nomatch eq_some_of_decoderDuty (cur := none) hduty (hseen h)
      exact ih (cur := none) hduty nofun (fun _ => agreeOn_decoderStart (hstart hcur)) fun _ => hstart hcur
    | decSym x =>
      obtain ⟨hk, hduty⟩ := decoderDuty_cons_decSym hduty
      rw [symbolsSentFor_cons_decSym]
      by_cases hkm : k = m
      · subst hkm
        obtain ⟨hout, hnext⟩ := effect_of_agreeOn (i := .decSym x) (cfg := cfg) (cfg' := cfg)
          (hagree (hk.imp_right And.left)) (fun _ => rfl) (fun _ => rfl)
        obtain ⟨hregs, hdata⟩ := ih hduty (fun _ => List.mem_cons_self) (fun _ => hnext) (absurd rfl)
        refine ⟨by simpa [programEffect] using hregs, ?_⟩
        simp [programEffect, decodesFor, hdata, hout]
      · have hcur : cur ≠ some m := by
          obtain rfl | ⟨rfl, -⟩ := hk <;> simp [hkm]
        simpa [decodesFor, hkm] using ih hduty (by simp [hkm]) (by simp [hkm]) (fun _ => hstart hcur)
    | decEnd =>
      obtain ⟨hk, hduty⟩ := decoderDuty_cons_decEnd hduty
      have hkm : k ≠ m := by
        rintro rfl
        cases eq_some_of_decoderDuty hduty List.mem_cons_self
      have hcur : cur ≠ some m := by
        obtain rfl | ⟨rfl, -⟩ := hk <;> simp [hkm]
      rw [if_neg (by simpa [decodesFor] using hkm)]
      exact ih hduty nofun (fun _ => agreeOn_decoderStart (hstart hcur)) fun _ => hstart hcur
    | ciphEnc imm | ciphDec imm | encStart | encByte imm =>
      exact ih (cur := cur) hduty hseen
        (fun h => agreeOn_trans (hagree h) (agreeOn_effect_of_ne (by simp [unitOf]) cfg r)) hstart

/-! ### The obligations -/

/-- Settles O59: up to its DEC.END the message is decoded as by a decoder that is given its symbols alone
(`programEffect_symbolsSentFor`), and DEC.END reports the outcome. -/
theorem dutifulHostDecodesEachMessage : Obligations.DutifulHostDecodesEachMessage := by
  intro p m s hstart hduty
  refine ⟨_, runProgram_eq _ s, ?_⟩
  obtain ⟨hregs, hdata⟩ := programEffect_symbolsSentFor s.config hduty nofun
    (fun _ => agreeOn_refl .decoder s.regs) fun _ => hstart
  rw [afterProgram_transcript, List.map_append, programEffect_append, decodeResponsesFor_append m (by simp),
    List.map_singleton, programEffect, programEffect, decodeResponsesFor_decEnd]
  have hloop := (decodeLoop_eq_of_start s.config (symbolsSentFor m p) hstart).trans
    (loopOutcome_of_agreeOn hregs [] _)
  exact (decodeResult_decEnd s.config hloop hdata :)

/-- Settles O57, by the simulation of the decoding loop by DEC.SYM. -/
theorem decodeMessageComposes : Obligations.DecodeMessageComposes := by
  intro xs s
  refine ⟨_, runProgram_eq _ s, ?_⟩
  rw [afterProgram_transcript, decodeResult_decodeProgram]

/-- Settles O58: at the start of a message the registers are those of DEC.START, and no command of the Decoder writes
`E_POL`. -/
theorem decodeWithoutDecStart : Obligations.DecodeWithoutDecStart := by
  intro xs s hstart
  refine ⟨_, runProgram_eq _ s, ?_, ?_⟩
  · rw [afterProgram_transcript, programEffect_append]
    exact decodeResult_decEnd s.config (decodeLoop_eq_of_start s.config xs hstart) rfl
  · have hpol := programEffect_ePol_of_decoder (p := xs.map .decSym) (by simp [unitOf]) s.config s.regs
    rw [afterProgram_regs, programEffect_append, startOfDecoding, ← hpol]
    rfl

/-- Settles O52, by induction over the bytes, for every polarity (`decodeLoop_wireFrom_messageBits`). -/
theorem decodeInvertsEncode : Obligations.DecodeInvertsEncode := decodeMessage_encodeToWire

/-- Settles O53: what decodes is the symbols of the bytes put out and of fewer than eight bits more. -/
theorem encodeInvertsDecode : Obligations.EncodeInvertsDecode := by
  intro cfg xs bs h
  obtain ⟨v, hv⟩ | ⟨bs', tail, htail, rfl⟩ := decodeMessage_cases xs
  · rw [hv] at h
    cases h
  · rw [decodeMessage_wireFrom htail] at h
    split at h
    · cases h
    · cases h
      exact ⟨encodeToWire_eq_take bs tail, by simp; omega⟩

/-- Settles O55: the first violation ends the check of the symbols. -/
theorem firstViolationDecides : Obligations.FirstViolationDecides := by
  intro cfg xs ys v h
  rw [decodeMessage_eq_violation_iff] at h ⊢
  rw [polarityAfter_append, h]
  rfl

/-- Settles O56: a violation is reported under both policies, and otherwise the policy decides about the trailing
symbols. -/
theorem truncationPolicy : Obligations.TruncationPolicy := by
  intro key xs
  obtain ⟨v, hv⟩ | ⟨bs, tail, htail, rfl⟩ := decodeMessage_cases xs
  · simp [hv]
  · have hdiv : bs.length = (8 * bs.length + tail.length) / 8 := by omega
    have hmod : (8 * bs.length + tail.length) % 8 = tail.length := by omega
    simp [decodeMessage_wireFrom htail, ← hdiv, hmod]

/-- Settles O48: DEC.SYM by the outcome of the check of its symbol. -/
theorem decSymDecodes : Obligations.DecSymDecodes := by
  refine ⟨decode_append _, fun x s he => ?_, fun x p q bit s hx he hp h7 => ?_, fun x p q bit s hx he hp h7 => ?_,
    fun x p v s hx he hp => ?_, fun x s hx he => ?_⟩
  · rw [exec_eq, effect_decSym_ignored he]
    rfl
  · obtain ⟨b, rfl, hcheck⟩ := checkSymbol_of_mem_acceptedSymbols hx
    rw [exec_eq, effect_decSym_of_ok s.config he (hp ▸ hcheck) h7]
    rfl
  · obtain ⟨b, rfl, hcheck⟩ := checkSymbol_of_mem_acceptedSymbols hx
    rw [exec_eq, effect_decSym_of_ok_last s.config he (hp ▸ hcheck) h7, h7]
    rfl
  · exact exec_decSym_of_error he (hp ▸ checkSymbol_of_mem_misplacedMarks hx)
  · exact exec_decSym_of_error he (checkSymbol_unknown s.regs.dPol hx)

/-- Settles O47: the row of the opcode map, its effect, and the step of its opcode with an operand (R42). -/
theorem decStartClearsDecoder : Obligations.DecStartClearsDecoder :=
  ⟨decode_encode .decStart, exec_eq .decStart, fun _ himm => decode_bareOpcode_reserved (by decide) himm,
    fun _ _ _ himm hs => step_of_decode_error (decode_bareOpcode_reserved (by decide) himm) hs⟩

/-- Settles O49, by the code that DEC.END reports. -/
theorem decEndReportsOutcome : Obligations.DecEndReportsOutcome := by
  refine ⟨decode_encode .decEnd, fun _ himm => decode_bareOpcode_reserved (by decide) himm,
    fun s v he => ?_, fun s he hcnt htrunc => ?_, fun s he hok => ?_, rfl, rfl, rfl⟩
  · rw [exec_decEnd, endCode_of_error he]
  · rw [exec_decEnd, endCode_of_none he, if_pos ⟨hcnt, htrunc⟩]
  · rw [exec_decEnd, endCode_of_none he, if_neg]
    rintro ⟨hcnt, htrunc⟩
    simp [hcnt, htrunc] at hok

end Sys2Proof.Proofs

namespace Sys2Proof.Proofs

open Sys2Proof.Machine Sys2Proof.Laws Sys2Proof.Safety Sys2Proof.Claims

/-! ### A run with illegal words in it (R80) -/

theorem wordEffect_of_illegal {w : Word} (h : ¬legalWord w = true) (cfg : Config) (r : Registers) :
    wordEffect cfg r w = (r, .illegalCommand, []) := by
  cases hw : decode w with
  | ok i => simp [legalWord, hw] at h
  | error e => exact wordEffect_of_error hw cfg r

/-- The responses to the legal ones of the words `ws`, out of the responses to all of them. -/
def legalResponses (ws : List Word) (rs : List Response) : List Response :=
  ((ws.zip rs).filter fun wr => legalWord wr.1).map fun wr => wr.2

theorem legalResponses_cons (w : Word) (ws : List Word) (x : Response) (rs : List Response) :
    legalResponses (w :: ws) (x :: rs) =
      if legalWord w = true then x :: legalResponses ws rs else legalResponses ws rs := by
  simp only [legalResponses, List.zip_cons_cons, List.filter_cons]
  split <;> rfl

/-- The legal words alone leave the registers that all the words leave, and get the same responses. -/
theorem runEffect_filter_legalWord (cfg : Config) (ws : List Word) (r : Registers) :
    runEffect cfg (ws.filter legalWord) r =
      ((runEffect cfg ws r).1, legalResponses ws (runEffect cfg ws r).2) := by
  induction ws generalizing r with
  | nil => rfl
  | cons w ws ih =>
    rw [runEffect_cons, legalResponses_cons]
    by_cases hw : legalWord w = true
    · rw [if_pos hw, List.filter_cons_of_pos hw, runEffect_cons, ih]
    · rw [if_neg hw, List.filter_cons_of_neg hw, ih, wordEffect_of_illegal hw]

/-! ### While an error is held (R79, R81, R83) -/

theorem exec_decSym_ignored {s : State} (h : s.regs.dErr ≠ none) (x : Byte) :
    exec (.decSym x) s = .next (answer s s.regs .ignoredAfterError []) := by
  rw [exec_eq, effect_decSym_ignored h]
  rfl

theorem exec_decEnd_of_error {s : State} {v : Violation} (h : s.regs.dErr = some v) :
    exec .decEnd s = .next (answer s (startOfDecoding s.regs) v.code []) := by
  rw [exec_decEnd, endCode_of_error h]

theorem exec_regs_of_cipher {i : Instr} {s t : State} (hi : unitOf i = .cipher) (h : exec i s = .next t) :
    t.regs = s.regs := by
  rw [exec_eq] at h
  cases h
  exact effect_regs_of_cipher hi s.config s.regs

/-- The Encoder has no errors (R83). -/
theorem effect_code_of_encoder {i : Instr} (h : unitOf i = .encoder) (cfg : Config) (r : Registers) :
    (effect cfg r i).2.1 = .ok := by
  cases i with
  | encStart | encByte imm => rfl
  | ciphEnc imm | ciphDec imm | decStart | decSym imm | decEnd => cases h

/-- A DEC.SYM that reports a violation leaves that violation in `D_ERR` (R72, R79). -/
theorem effect_decSym_dErr_of_violation {cfg : Config} {r : Registers} {x : Byte}
    (h : (effect cfg r (.decSym x)).2.1 = .unexpectedPositive ∨
      (effect cfg r (.decSym x)).2.1 = .unexpectedNegative ∨ (effect cfg r (.decSym x)).2.1 = .unknownSymbol) :
    ∃ v, (effect cfg r (.decSym x)).1.dErr = some v ∧ (effect cfg r (.decSym x)).2.1 = v.code := by
  obtain he | ⟨v, he⟩ | ⟨bit, p, -, he⟩ | ⟨bit, p, -, he⟩ := effect_decSym_cases cfg r x <;> rw [he] at h ⊢
  · simp at h
  · exact ⟨v, rfl, rfl⟩
  · simp at h
  · simp at h

/-- `D_ERR` shows a violation by the number of its code (R18, R24). -/
theorem errorBits_some (v : Violation) : (errorBits (some v)).setWidth 4 = v.code.number := by
  cases v <;> rfl

/-- A command keeps a held error, but for DEC.START and DEC.END, which clear it. -/
theorem effect_dErr_of_held {r : Registers} {v : Violation} (h : r.dErr = some v) (cfg : Config) (i : Instr) :
    (effect cfg r i).1.dErr = if i = .decStart ∨ i = .decEnd then none else some v := by
  cases i with
  | ciphEnc imm | ciphDec imm => rw [effect_regs_of_cipher rfl, h]; simp
  | encStart | encByte imm => simp [effect, h]
  | decStart | decEnd => simp [effect]
  | decSym imm => simp [effect, h]

theorem wordEffect_dErr_of_held {r : Registers} {v : Violation} (h : r.dErr = some v) (cfg : Config)
    (w : Word) :
    (wordEffect cfg r w).1.dErr =
      if w = encode .decStart ∨ w = encode .decEnd then none else some v := by
  cases hw : decode w with
  | ok i =>
    obtain rfl := decode_eq_ok_iff.mp hw
    simp only [wordEffect_encode, effect_dErr_of_held h, encode_injective.eq_iff]
  | error e =>
    rw [wordEffect_of_error hw, if_neg, h]
    rintro (rfl | rfl) <;> simp at hw

/-! ### The obligations -/

/-- Settles O9, by induction over the words: an illegal word leaves the registers from which the run goes on. -/
theorem illegalWordsLeaveTheRunAlone : Obligations.IllegalWordsLeaveTheRunAlone := by
  refine ⟨fun w e s rest => step_of_decode_error, fun ws s => ⟨_, _, runWords_eq ws s, runWords_eq _ s, ?_⟩⟩
  simp only [transcript_eq, List.reverse_reverse, runEffect_filter_legalWord, true_and]
  rfl

/-- Settles O24: an illegal word is answered before it runs, and a held error comes first in DEC.SYM and DEC.END. -/
theorem oneCodeByPriority : Obligations.OneCodeByPriority :=
  ⟨fun _ _ _ _ => step_of_decode_error, fun x _ h => exec_decSym_ignored h x, fun _ _ => exec_decEnd_of_error⟩

/-- Settles O50: DEC.SYM by its outcomes, a run of ignored DEC.SYM by what each does alone. -/
theorem errorIsSticky : Obligations.ErrorIsSticky := by
  refine ⟨fun x s t r h hr hcode => ?_, fun xs s h => ⟨_, runProgram_eq _ s, ?_⟩,
    fun s => ⟨_, _, exec_eq .decStart s, exec_eq .decEnd s, rfl, rfl⟩,
    fun s rest hs => ⟨_, step_reset hs, rfl⟩, fun i s t => exec_regs_of_cipher⟩
  · rw [exec_eq] at h
    cases h
    rw [after_responses] at hr
    obtain ⟨rfl, -⟩ := List.cons.inj hr
    rw [respond_code] at hcode ⊢
    obtain ⟨v, herr, hv⟩ := effect_decSym_dErr_of_violation hcode
    rw [after_regs, herr, errorBits_some, hv]
  · have hkept : programEffect s.config (xs.map .decSym) s.regs =
        (s.regs, xs.map fun _ => respond (s.regs, .ignoredAfterError, [])) := by
      rw [programEffect_of_regs_kept (by simp [effect_decSym_ignored h])]
      simp [Function.comp_def, effect_decSym_ignored h]
    rw [afterProgram_transcript, afterProgram_regs, hkept]
    simp [outcomeOf_respond]

/-- Settles O51, by the cases of a step: of the words DEC.START and DEC.END alone write `D_ERR` while it is held. -/
theorem onlyThreeWaysOutOfAnError : Obligations.OnlyThreeWaysOutOfAnError := by
  refine ⟨fun s t v he h => ?_, fun s v he => ⟨_, _, exec_decEnd_of_error he, rfl, rfl⟩,
    fun i s hi => ⟨_, _, exec_eq i s, rfl, effect_code_of_encoder hi s.config s.regs⟩,
    fun i s t => exec_regs_of_cipher⟩
  obtain ⟨hs, rfl⟩ | ⟨rest, hs, rfl⟩ | ⟨w, rest, hs, rfl⟩ := step_cases h
  · simp [hs, he]
  · simp [hs, Registers.reset]
  · have hnext : (∃ rest', s.inputs = .reset :: rest' ∨ s.inputs = .command 0x2000#16 :: rest' ∨
        s.inputs = .command 0x2200#16 :: rest') ↔ w = encode .decStart ∨ w = encode .decEnd := by
      simp [hs, exists_or, encode, wordOf]
    rw [after_regs, wordEffect_dErr_of_held he, hnext]
    split
    case isTrue hw => simp [hw]
    case isFalse hw => simp [hw]

end Sys2Proof.Proofs

namespace Sys2Proof.Proofs

open Sys2Proof.Machine Sys2Proof.Laws Sys2Proof.Claims

/-! ### A message sent without ENC.START (R91) -/

/-- What follows ENCODE.MSG of the bytes `bs`: the registers it runs from, and the responses to it in order. -/
theorem transcript_drop_after_encodeProgram (bs : List Byte) (p : List Instr) (s : State) :
    (afterProgram (encodeProgram bs ++ p) s).transcript.drop (bs.length + 1) =
      (programEffect s.config p (programEffect s.config (encodeProgram bs) s.regs).1).2 := by
  rw [afterProgram_transcript, programEffect_append]
  exact List.drop_left' (by simp [encodeProgram])

/-- ENCODE.MSG leaves POS flipped by the parity of its message (R62). -/
theorem programEffect_encodeProgram_ePol (cfg : Config) (bs : List Byte) (r : Registers) :
    (programEffect cfg (encodeProgram bs) r).1.ePol = flipIf (oddOnes (messageBits bs)) .pos :=
  programEffect_encBytes_ePol cfg bs _

/-- The data of ENC.BYTE commands after ENCODE.MSG of the bytes `bs` start from the polarity that `bs` left. -/
theorem responseData_after_encodeProgram (bs bs' : List Byte) (s : State) :
    responseData
        ((afterProgram (encodeProgram bs ++ bs'.map .encByte) s).transcript.drop (bs.length + 1)) =
      wireFrom (messageBits bs') (flipIf (oddOnes (messageBits bs)) .pos) := by
  rw [transcript_drop_after_encodeProgram, responseData_encBytes, programEffect_encodeProgram_ePol]

/-- Bits without a 1 bit are sent as zeros, whatever the polarity held. -/
theorem wireFrom_eq_of_no_ones {bits : List Bool} (h : true ∉ bits) (p q : Polarity) :
    wireFrom bits p = wireFrom bits q := by
  induction bits with
  | nil => rfl
  | cons bit bits ih =>
    cases bit with
    | true => exact absurd List.mem_cons_self h
    | false =>
      rw [wireFrom_cons, wireFrom_cons]
      exact congrArg (0x01#8 :: ·) (ih (List.not_mem_of_not_mem_cons h))

/-- Bits sent from the polarity that the decoder does not hold are rejected at their first 1 bit. -/
theorem polarityAfter_wireFrom_flip {bits : List Bool} (h : true ∈ bits) (p : Polarity) :
    polarityAfter p (wireFrom bits p.flip) = .error (wrongSide p) := by
  induction bits with
  | nil => cases h
  | cons bit bits ih =>
    rw [wireFrom_cons]
    cases bit with
    | true => exact polarityAfter_cons_of_error (checkSymbol_wrongSide p) _
    | false => exact (polarityAfter_cons_of_ok (checkSymbol_zero p) _).trans (ih (by simpa using h))

/-! ### The reset values (R88, R89) -/

theorem status_reset : status Registers.reset = 0x0000#16 := rfl

/-- ENC.START writes what reset leaves in `E_POL`. -/
theorem effect_encStart_reset (cfg : Config) :
    effect cfg Registers.reset .encStart = (Registers.reset, .ok, []) := rfl

/-- DEC.START writes what reset leaves in the decoder's registers. -/
theorem effect_decStart_reset (cfg : Config) :
    effect cfg Registers.reset .decStart = (Registers.reset, .ok, []) := rfl

/-- The two START commands write all five registers. -/
theorem programEffect_bothStarts (cfg : Config) (r : Registers) :
    (programEffect cfg [.encStart, .decStart] r).1 = Registers.reset := rfl

/-- A command that keeps the registers `r` and answers OK with no data does so in every state that holds `r`. -/
theorem exec_of_effect_ok {i : Instr} {s : State} {r : Registers} (hs : s.regs = r)
    (h : effect s.config r i = (r, .ok, [])) : exec i s = .next (answer s s.regs .ok []) := by
  rw [exec_eq, hs, h]
  rfl

/-! ### The obligations -/

/-- Settles O44: the second message is sent from the polarity that the first leaves. From NEG its first mark is one that
the decoder does not accept at POS; from POS, or without a mark, it is sent as `encode` sends it. -/
theorem omittedEncStart : Obligations.OmittedEncStart := by
  intro bs bs' s
  refine ⟨_, runProgram_eq _ s, fun hodd hone cfg => ?_, fun h => ?_⟩
  · rw [responseData_after_encodeProgram, hodd, decodeMessage_eq_violation_iff]
    exact polarityAfter_wireFrom_flip hone .pos
  · rw [responseData_after_encodeProgram, encodeToWire_eq]
    obtain heven | hzero := h
    · rw [heven]
      rfl
    · exact wireFrom_eq_of_no_ones hzero _ _

/-- Settles O17: reset writes the reset values, and neither the configuration nor a response. -/
theorem resetLeavesResetValues : Obligations.ResetLeavesResetValues :=
  ⟨fun _ _ hs => ⟨_, step_reset hs, rfl, rfl, rfl, rfl, rfl, status_reset, rfl, rfl⟩,
    rfl, rfl, rfl, rfl, rfl, status_reset⟩

/-- Settles O19: the two START commands write the reset values, and so change nothing where these are held. -/
theorem resetEqualsBothStarts : Obligations.ResetEqualsBothStarts :=
  ⟨fun s _ _ hu => ⟨_, _, runProgram_eq _ s, step_reset hu, programEffect_bothStarts s.config s.regs⟩,
    fun s hs => ⟨exec_of_effect_ok hs (effect_encStart_reset s.config),
      exec_of_effect_ok hs (effect_decStart_reset s.config)⟩⟩

end Sys2Proof.Proofs

namespace Sys2Proof.Proofs

open Sys2Proof.Machine Sys2Proof.Laws

/-- Settles O13, by the rule for a step at which the host presents nothing. -/
theorem stepWaitsForInput : Obligations.StepWaitsForInput := fun _ hidle => step_idle hidle

end Sys2Proof.Proofs
